-- ==== Sys2Proof/Word.lean ====
section
/-!
DEFINITION. The widths of the block: the 64-bit container every data value is held in, the 8-bit
provenance slot and the 32-bit command word (spec 00 R4, R5; 10 R11, R15; 30 R56).
-/

namespace Sys2Proof

/-- A 64-bit container (00 R5): registers, blocks, keys, CAND words, `wdata`, `rdata`. -/
abbrev Word := BitVec 64

/-- An 8-bit slot of the provenance map (10 R15). -/
abbrev Byte := BitVec 8

/-- A 32-bit command word, presented whole (30 R55, R56; 20 R42). -/
abbrev CmdWord := BitVec 32

end Sys2Proof
end

