-- ==== Sys2Proof/Syntax.lean ====
section
/-!
DEFINITION. The fourteen commands of the "STARK-DES command set, version 1" with their operands
(spec 30 R57 to R59, R62), the transaction that carries a command to the block (30 R55) and the
pseudo-instructions (30 R63).
-/

namespace Sys2Proof

/-- A register number 0..15; all sixteen are legal (30 R56) and none is hardwired (10 R11). -/
abbrev Reg := Fin 16

/-- A bit position 0..63, 0-indexed, most significant first (00 R5, 30 R58). -/
abbrev Pos := Fin 64

/-- A round index 0..15; every value is a valid round (30 R58). -/
abbrev RoundIx := Fin 16

/-- A candidate index 0..255, every one in range (20 R43). -/
abbrev CandIx := Fin 256

/-- The table selector of APPLY; the reserved selectors 6..15 have no constructor (30 R58, R60). -/
inductive TableSel where
  | ip | fp | pc1 | pc2 | e | p
deriving DecidableEq, Repr

/-- The commands of the opcode map (30 R59), one constructor each, with the operands in the order
of the assembler syntax (30 R62). LDI's 64-bit value is the transaction's `wdata` and is no part
of the command word (30 R55, 45 R120). -/
inductive Instr where
  /-- `LDI rd, imm64` (45 R120) -/
  | ldi (rd : Reg)
  /-- `RD rs1` (45 R121) -/
  | rdReg (rs1 : Reg)
  /-- `RDS rd` (45 R122) -/
  | rds (rd : Reg)
  /-- `SETBIT rd, rs1, srcPos, dstPos` (40 R70) -/
  | setbit (rd rs1 : Reg) (srcPos dstPos : Pos)
  /-- `APPLY rd, rs1, tbl` (40 R72) -/
  | apply (rd rs1 : Reg) (tbl : TableSel)
  /-- `PERM rd, rs1, ui`: `true` is the initial permutation (40 R73) -/
  | perm (rd rs1 : Reg) (ui : Bool)
  /-- `KSF rd, rd2, rs1, rnd`: `rd` gets the round key, `rd2` the next state (41 R81) -/
  | ksf (rd rd2 rs1 : Reg) (rnd : RoundIx)
  /-- `FRND rd, rs1, rs2`: `rs1` the block, `rs2` the round key (42 R93) -/
  | frnd (rd rs1 rs2 : Reg)
  /-- `SWAP rd, rs1` (42 R95) -/
  | swap (rd rs1 : Reg)
  /-- `KSR rs1, rnd` (43 R103) -/
  | ksr (rs1 : Reg) (rnd : RoundIx)
  /-- `LDC rd, idx8` (43 R105) -/
  | ldc (rd : Reg) (idx8 : CandIx)
  /-- `LDP rd, idx6` (43 R106) -/
  | ldp (rd : Reg) (idx6 : Pos)
  /-- `KSRCH rd, rs1, rs2, rs3, rnd`: round key, plaintext, ciphertext (44 R112) -/
  | ksrch (rd rs1 rs2 rs3 : Reg) (rnd : RoundIx)
  /-- `ENC rd, rs1, rs2`: master key, plaintext (44 R111) -/
  | enc (rd rs1 rs2 : Reg)
deriving DecidableEq, Repr

/-- What the host presents in one transaction: the command word and the data operand (30 R55). -/
structure Transaction where
  cmd : CmdWord
  wdata : Word
deriving DecidableEq, Repr

/-- The pseudo-instructions of the assembler (30 R63); none adds a behaviour. -/
inductive Pseudo where
  /-- `CLR rd` -/
  | clr (rd : Reg)
  /-- `IPERM rd, rs1` -/
  | iperm (rd rs1 : Reg)
  /-- `FPERM rd, rs1` -/
  | fperm (rd rs1 : Reg)
  /-- `MOV rd, rs1` -/
  | mov (rd rs1 : Reg)
deriving DecidableEq, Repr

end Sys2Proof
end

