-- ==== Sys2Proof/WellFormed.lean ====
section
/-!
DEFINITION. When an `Instr` term stands for a legal command. The operand types rule out every
other illegal form; what is left is KSF's two destinations (spec 30 R60 item 4, 41 R81).
-/

namespace Sys2Proof

/-- `true` when the term is one of the commands the block executes: KSF needs `rd != rd2`
(30 R57, R60 item 4); no other command has an illegal combination of operands. -/
def Instr.wellFormed : Instr → Bool
  | .ldi _ => true
  | .rdReg _ => true
  | .rds _ => true
  | .setbit _ _ _ _ => true
  | .apply _ _ _ => true
  | .perm _ _ _ => true
  | .ksf rd rd2 _ _ => rd != rd2
  | .frnd _ _ _ => true
  | .swap _ _ => true
  | .ksr _ _ => true
  | .ldc _ _ => true
  | .ldp _ _ => true
  | .ksrch _ _ _ _ _ => true
  | .enc _ _ _ => true

end Sys2Proof
end

