-- ==== Sys2Proof/Decode.lean ====
section
/-!
DEFINITION. The decoder, total on all 2^32 command words and refusing by name (spec 30 R56 to R61),
then the encoder written from the same formats, the match/mask rows of the opcode map (30 R59), the
pseudo-instructions' expansions (30 R63) and the assembler text (30 R62).
-/

namespace Sys2Proof

/-! ### The fields of a command word (30 R56), in weight numbering (00 R6) -/

/-- `w[hi:lo]` with `len = hi - lo + 1` (00 R6). -/
def cmdSlice (w : CmdWord) (lo len : Nat) : BitVec len := w.extractLsb' lo len

/-- `op = cmd[31:24]` -/
def opField (w : CmdWord) : BitVec 8 := cmdSlice w 24 8
/-- `a = cmd[23:20]` -/
def aField (w : CmdWord) : BitVec 4 := cmdSlice w 20 4
/-- `b = cmd[19:16]` -/
def bField (w : CmdWord) : BitVec 4 := cmdSlice w 16 4
/-- `c = cmd[15:12]` -/
def cField (w : CmdWord) : BitVec 4 := cmdSlice w 12 4
/-- `d = cmd[11:8]` -/
def dField (w : CmdWord) : BitVec 4 := cmdSlice w 8 4
/-- `e = cmd[7:4]` -/
def eField (w : CmdWord) : BitVec 4 := cmdSlice w 4 4
/-- `f = cmd[3:0]` -/
def fField (w : CmdWord) : BitVec 4 := cmdSlice w 0 4
/-- `srcPos = cmd[11:6]` (format B) -/
def srcPosField (w : CmdWord) : BitVec 6 := cmdSlice w 6 6
/-- `dstPos = cmd[5:0]` (format B) and `idx6 = cmd[5:0]` (LDP) -/
def low6Field (w : CmdWord) : BitVec 6 := cmdSlice w 0 6
/-- `cmd[7:6]`, must be zero in LDP -/
def ldpZeroField (w : CmdWord) : BitVec 2 := cmdSlice w 6 2
/-- `idx8 = cmd[7:0]` (LDC) -/
def idx8Field (w : CmdWord) : BitVec 8 := cmdSlice w 0 8
/-- `cmd[3:1]`, must be zero in PERM -/
def permZeroField (w : CmdWord) : BitVec 3 := cmdSlice w 1 3
/-- `ui = cmd[0]` (PERM) -/
def uiField (w : CmdWord) : BitVec 1 := cmdSlice w 0 1

/-! ### Decoding -/

/-- Why a command word is illegal (30 R60). Executing any of them raises `IllegalCommand`. -/
inductive Illegal where
  /-- R60 item 1: `op` is not one of the fourteen. -/
  | reservedOpcode
  /-- R60 item 2: a must-be-zero bit of the format is 1. -/
  | mustBeZero
  /-- R60 item 3: APPLY with `tbl` in 6..15. -/
  | reservedTable
  /-- R60 item 4: KSF with `rd = rd2`. -/
  | ksfSameDestination
deriving DecidableEq, Repr

/-- A register number from its 4-bit field. -/
def regOf (f : BitVec 4) : Reg := f.toFin
/-- A round index from its 4-bit field. -/
def roundOf (f : BitVec 4) : RoundIx := f.toFin
/-- A position from its 6-bit field. -/
def posOf (f : BitVec 6) : Pos := f.toFin
/-- A candidate index from its 8-bit field. -/
def candIxOf (f : BitVec 8) : CandIx := f.toFin

/-- The table selector numbers (30 R58): 0 IP, 1 FP, 2 PC1, 3 PC2, 4 E, 5 P; 6..15 reserved. -/
def tableSelOf (f : BitVec 4) : Option TableSel :=
  if f = 0 then some .ip
  else if f = 1 then some .fp
  else if f = 2 then some .pc1
  else if f = 3 then some .pc2
  else if f = 4 then some .e
  else if f = 5 then some .p
  else none

/-- `i` when the format's unused bits are zero, else the refusal of 30 R60 item 2. -/
def whenZero (unusedZero : Bool) (i : Instr) : Except Illegal Instr :=
  if unusedZero then .ok i else .error .mustBeZero

/-- APPLY's operands (30 R57 format T): the unused fields first, then the selector. -/
def decodeApply (w : CmdWord) : Except Illegal Instr :=
  if cField w == 0 && dField w == 0 && eField w == 0 then
    match tableSelOf (fField w) with
    | some t => .ok (.apply (regOf (aField w)) (regOf (bField w)) t)
    | none => .error .reservedTable
  else .error .mustBeZero

/-- KSF's operands (30 R57 format K): the unused fields first, then the two destinations. -/
def decodeKsf (w : CmdWord) : Except Illegal Instr :=
  if dField w == 0 && eField w == 0 then
    if aField w = cField w then .error .ksfSameDestination
    else .ok (.ksf (regOf (aField w)) (regOf (cField w)) (regOf (bField w)) (roundOf (fField w)))
  else .error .mustBeZero

/-- The decoder (30 R56 to R61): `op` gives the format, the format gives the fields, and every field
the format does not use must be zero. -/
def decode (w : CmdWord) : Except Illegal Instr :=
  if opField w = 0x01 then
    whenZero (bField w == 0 && cField w == 0 && dField w == 0 && eField w == 0 && fField w == 0)
      (.ldi (regOf (aField w)))
  else if opField w = 0x02 then
    whenZero (aField w == 0 && cField w == 0 && dField w == 0 && eField w == 0 && fField w == 0)
      (.rdReg (regOf (bField w)))
  else if opField w = 0x03 then
    whenZero (bField w == 0 && cField w == 0 && dField w == 0 && eField w == 0 && fField w == 0)
      (.rds (regOf (aField w)))
  else if opField w = 0x10 then
    whenZero (cField w == 0)
      (.setbit (regOf (aField w)) (regOf (bField w)) (posOf (srcPosField w)) (posOf (low6Field w)))
  else if opField w = 0x11 then decodeApply w
  else if opField w = 0x12 then
    whenZero (cField w == 0 && dField w == 0 && eField w == 0 && permZeroField w == 0)
      (.perm (regOf (aField w)) (regOf (bField w)) (uiField w == 1))
  else if opField w = 0x20 then decodeKsf w
  else if opField w = 0x30 then
    whenZero (dField w == 0 && eField w == 0 && fField w == 0)
      (.frnd (regOf (aField w)) (regOf (bField w)) (regOf (cField w)))
  else if opField w = 0x31 then
    whenZero (cField w == 0 && dField w == 0 && eField w == 0 && fField w == 0)
      (.swap (regOf (aField w)) (regOf (bField w)))
  else if opField w = 0x40 then
    whenZero (aField w == 0 && cField w == 0 && dField w == 0 && eField w == 0)
      (.ksr (regOf (bField w)) (roundOf (fField w)))
  else if opField w = 0x41 then
    whenZero (bField w == 0 && cField w == 0 && dField w == 0)
      (.ldc (regOf (aField w)) (candIxOf (idx8Field w)))
  else if opField w = 0x42 then
    whenZero (bField w == 0 && cField w == 0 && dField w == 0 && ldpZeroField w == 0)
      (.ldp (regOf (aField w)) (posOf (low6Field w)))
  else if opField w = 0x50 then
    whenZero (eField w == 0)
      (.ksrch (regOf (aField w)) (regOf (bField w)) (regOf (cField w)) (regOf (dField w))
        (roundOf (fField w)))
  else if opField w = 0x51 then
    whenZero (dField w == 0 && eField w == 0 && fField w == 0)
      (.enc (regOf (aField w)) (regOf (bField w)) (regOf (cField w)))
  else .error .reservedOpcode

/-- The instruction the decoder reads from a table word: a command word is one 32-bit number
(20 R42), so bit 0 of the table is `cmd[0]`. -/
def decodeTableWord (nbits w : Nat) : Option Instr :=
  (decode (BitVec.ofNat 32 (w % 2 ^ nbits))).toOption

/-! ### Encoding -/

/-- The 4-bit field that holds a register number or a round index. -/
def nibbleOf (r : Fin 16) : BitVec 4 := BitVec.ofFin r

/-- The number of a table selector (30 R58). -/
def tableSelCode : TableSel → BitVec 4
  | .ip => 0
  | .fp => 1
  | .pc1 => 2
  | .pc2 => 3
  | .e => 4
  | .p => 5

/-- A field put at weight `lo` of an otherwise zero command word. -/
def atWeight {n : Nat} (lo : Nat) (f : BitVec n) : CmdWord := f.setWidth 32 <<< lo

/-- The six fields of 30 R56 put together. -/
def packFields (op : BitVec 8) (a b c d e f : BitVec 4) : CmdWord :=
  atWeight 24 op ||| atWeight 20 a ||| atWeight 16 b ||| atWeight 12 c ||| atWeight 8 d
    ||| atWeight 4 e ||| atWeight 0 f

/-- Format B (30 R57): two 6-bit positions overlay the low twelve bits. -/
def packB (op : BitVec 8) (a b c : BitVec 4) (src dst : BitVec 6) : CmdWord :=
  atWeight 24 op ||| atWeight 20 a ||| atWeight 16 b ||| atWeight 12 c ||| atWeight 6 src
    ||| atWeight 0 dst

/-- Format M (30 R57): an 8-bit index overlays the low eight bits. -/
def packM (op : BitVec 8) (a b c d : BitVec 4) (low : BitVec 8) : CmdWord :=
  atWeight 24 op ||| atWeight 20 a ||| atWeight 16 b ||| atWeight 12 c ||| atWeight 8 d
    ||| atWeight 0 low

/-- The command word of an instruction (30 R57). -/
def encode : Instr → CmdWord
  | .ldi rd => packFields 0x01 (nibbleOf rd) 0 0 0 0 0
  | .rdReg rs1 => packFields 0x02 0 (nibbleOf rs1) 0 0 0 0
  | .rds rd => packFields 0x03 (nibbleOf rd) 0 0 0 0 0
  | .setbit rd rs1 src dst =>
      packB 0x10 (nibbleOf rd) (nibbleOf rs1) 0 (BitVec.ofFin src) (BitVec.ofFin dst)
  | .apply rd rs1 t => packFields 0x11 (nibbleOf rd) (nibbleOf rs1) 0 0 0 (tableSelCode t)
  | .perm rd rs1 ui =>
      packFields 0x12 (nibbleOf rd) (nibbleOf rs1) 0 0 0 ((BitVec.ofBool ui).setWidth 4)
  | .ksf rd rd2 rs1 rnd =>
      packFields 0x20 (nibbleOf rd) (nibbleOf rs1) (nibbleOf rd2) 0 0 (nibbleOf rnd)
  | .frnd rd rs1 rs2 => packFields 0x30 (nibbleOf rd) (nibbleOf rs1) (nibbleOf rs2) 0 0 0
  | .swap rd rs1 => packFields 0x31 (nibbleOf rd) (nibbleOf rs1) 0 0 0 0
  | .ksr rs1 rnd => packFields 0x40 0 (nibbleOf rs1) 0 0 0 (nibbleOf rnd)
  | .ldc rd idx => packM 0x41 (nibbleOf rd) 0 0 0 (BitVec.ofFin idx)
  | .ldp rd idx => packM 0x42 (nibbleOf rd) 0 0 0 ((BitVec.ofFin (w := 6) idx).setWidth 8)
  | .ksrch rd rs1 rs2 rs3 rnd =>
      packFields 0x50 (nibbleOf rd) (nibbleOf rs1) (nibbleOf rs2) (nibbleOf rs3) 0 (nibbleOf rnd)
  | .enc rd rs1 rs2 => packFields 0x51 (nibbleOf rd) (nibbleOf rs1) (nibbleOf rs2) 0 0 0

/-! ### The opcode map as match/mask rows (30 R59) -/

/-- One row of the opcode map: a word selects it when `w & mask = pattern`. -/
structure OpcodeRow where
  pattern : CmdWord
  mask : CmdWord
deriving DecidableEq, Repr

/-- The row of 30 R59 an instruction belongs to. The decoder above is written from the formats of
R57 and does not use these numbers. -/
def opcodeRow : Instr → OpcodeRow
  | .ldi _ => ⟨0x01000000, 0xFF0FFFFF⟩
  | .rdReg _ => ⟨0x02000000, 0xFFF0FFFF⟩
  | .rds _ => ⟨0x03000000, 0xFF0FFFFF⟩
  | .setbit _ _ _ _ => ⟨0x10000000, 0xFF00F000⟩
  | .apply _ _ _ => ⟨0x11000000, 0xFF00FFF0⟩
  | .perm _ _ _ => ⟨0x12000000, 0xFF00FFFE⟩
  | .ksf _ _ _ _ => ⟨0x20000000, 0xFF000FF0⟩
  | .frnd _ _ _ => ⟨0x30000000, 0xFF000FFF⟩
  | .swap _ _ => ⟨0x31000000, 0xFF00FFFF⟩
  | .ksr _ _ => ⟨0x40000000, 0xFFF0FFF0⟩
  | .ldc _ _ => ⟨0x41000000, 0xFF0FFF00⟩
  | .ldp _ _ => ⟨0x42000000, 0xFF0FFFC0⟩
  | .ksrch _ _ _ _ _ => ⟨0x50000000, 0xFF0000F0⟩
  | .enc _ _ _ => ⟨0x51000000, 0xFF000FFF⟩

/-- The mnemonic of 30 R59. -/
def mnemonic : Instr → String
  | .ldi _ => "LDI"
  | .rdReg _ => "RD"
  | .rds _ => "RDS"
  | .setbit _ _ _ _ => "SETBIT"
  | .apply _ _ _ => "APPLY"
  | .perm _ _ _ => "PERM"
  | .ksf _ _ _ _ => "KSF"
  | .frnd _ _ _ => "FRND"
  | .swap _ _ => "SWAP"
  | .ksr _ _ => "KSR"
  | .ldc _ _ => "LDC"
  | .ldp _ _ => "LDP"
  | .ksrch _ _ _ _ _ => "KSRCH"
  | .enc _ _ _ => "ENC"

/-! ### The assembler's view (30 R62, R63) -/

/-- A command as a transaction; `wdata` matters to LDI only (30 R55). -/
def transactionOf (i : Instr) (wdata : Word) : Transaction := ⟨encode i, wdata⟩

/-- The expansion of a pseudo-instruction (30 R63). -/
def expandPseudo : Pseudo → List Transaction
  | .clr rd => [transactionOf (.ldi rd) 0]
  | .iperm rd rs1 => [transactionOf (.perm rd rs1 true) 0]
  | .fperm rd rs1 => [transactionOf (.perm rd rs1 false) 0]
  | .mov rd rs1 => [transactionOf (.apply rd rs1 .fp) 0, transactionOf (.apply rd rd .ip) 0]

/-- A register's name `x0` .. `x15`. -/
def regName (r : Reg) : String := "x" ++ toString r.val

/-- A table selector's name. -/
def tableName : TableSel → String
  | .ip => "IP"
  | .fp => "FP"
  | .pc1 => "PC1"
  | .pc2 => "PC2"
  | .e => "E"
  | .p => "P"

/-- The operands of a command as 30 R62 writes them, destination first; LDI shows `wdata`. -/
def asmOperands (wdata : Word) : Instr → List String
  | .ldi rd => [regName rd, toString wdata.toNat]
  | .rdReg rs1 => [regName rs1]
  | .rds rd => [regName rd]
  | .setbit rd rs1 src dst => [regName rd, regName rs1, toString src.val, toString dst.val]
  | .apply rd rs1 t => [regName rd, regName rs1, tableName t]
  | .perm rd rs1 ui => [regName rd, regName rs1, if ui then "1" else "0"]
  | .ksf rd rd2 rs1 rnd => [regName rd, regName rd2, regName rs1, toString rnd.val]
  | .frnd rd rs1 rs2 => [regName rd, regName rs1, regName rs2]
  | .swap rd rs1 => [regName rd, regName rs1]
  | .ksr rs1 rnd => [regName rs1, toString rnd.val]
  | .ldc rd idx => [regName rd, toString idx.val]
  | .ldp rd idx => [regName rd, toString idx.val]
  | .ksrch rd rs1 rs2 rs3 rnd =>
      [regName rd, regName rs1, regName rs2, regName rs3, toString rnd.val]
  | .enc rd rs1 rs2 => [regName rd, regName rs1, regName rs2]

/-- A command in the assembler syntax of 30 R62. -/
def assembly (wdata : Word) (i : Instr) : String :=
  mnemonic i ++ " " ++ String.intercalate ", " (asmOperands wdata i)

end Sys2Proof
end

