-- ==== Sys2Proof/Config.lean ====
section
/-!
DEFINITION. What the spec leaves to the implementation or leaves unspecified. Each is a constant
without a body, so that whatever is proved holds for every value of it. The ROM tables are fixed by
the spec and stand in `Sys2Proof/Machine/Rom.lean`.
-/

namespace Sys2Proof

/-- The OPEN parameter `PARITY_COMPLEMENT` (00 R4, 43 R102, 92 D15): `false` = a generated key's
parity bit is the raw XOR of its byte's seven data bits, `true` = its complement. Fixed for the life
of the model and touched by nothing, reset included (10 R28). DEDUCED,
safe: log entry 1. -/
opaque Config.parityComplement : Bool

/-- The contents of CAND word `k` while nothing has been written to it since reset: unspecified
(10 R28, 93 U3). A free value. DESIGN CHOICE, safe: log entry 2. -/
opaque Config.candUnwritten (k : Nat) : Word

/-- The contents of PROV slot `q` while nothing has been written to it since reset: unspecified
(10 R28, 93 U3). A free value. DESIGN CHOICE, safe: log entry 2. -/
opaque Config.provUnwritten (q : Nat) : Byte

end Sys2Proof
end

