-- ==== Sys2Proof/Machine/State.lean ====
section
/-!
DEFINITION. The whole state of the block (spec 10 R10 to R15), the host's moves still to come (00 R9,
10 R12), the reasons a step could stop, and the state right after reset (10 R28). Plain data only.
-/

namespace Sys2Proof.Machine

/-- STATUS, the one control and status register, field by field (10 R13). The seven fields are all
twenty bits; `Status.toBits` (Flags.lean) puts them at their weights. -/
structure Status where
  /-- `[0]`: the last KSRCH found a matching candidate. -/
  found : Bool
  /-- `[1]`: the last KSRCH tried all 256 candidates without a match. -/
  nf : Bool
  /-- `[2]`: CAND and PROV hold a completed reverse key schedule. -/
  cv : Bool
  /-- `[3]`: a fault is recorded; every command is ignored until reset. -/
  fault : Bool
  /-- `[7:4]`: the cause of the recorded fault (60 R130), 0 while `fault` is clear. -/
  cause : BitVec 4
  /-- `[15:8]`: the index of the matching candidate while `found` is set. -/
  idx : BitVec 8
  /-- `[19:16]`: the round CAND and PROV were computed for. -/
  cr : BitVec 4
deriving DecidableEq, Repr

/-- An element-indexed memory (20 R40): (index, value) pairs with strictly rising indices. An index
that is not listed has not been written since reset. -/
abbrev Memory (α : Type) := List (Nat × α)

/-- What the host does next: one transaction, or asserting `rst` between transactions (00 R9,
30 R55, 70 R150). -/
inductive HostMove where
  | transaction (t : Transaction)
  | reset
deriving DecidableEq, Repr

/-- The state of the block, with the host's side of the interface as the model's own last two
fields. -/
structure State where
  /-- `x[0..15]` (10 R11). -/
  x : Vector Word 16
  /-- `STATUS` (10 R13). -/
  status : Status
  /-- `CAND[0..255]` (10 R14). -/
  cand : Memory Word
  /-- `PROV[0..63]` (10 R15): cells of one byte, `List Host.Cell`. -/
  prov : List Host.Cell
  /-- `RDATA`, the register behind the `rdata` output (10 R10, 30 R55). -/
  rdata : Word
  /-- The model's own: the value on the `wdata` input in the current transaction (DESIGN CHOICE,
  log entry 4). -/
  wdata : Word
  /-- The model's own: the host's moves still to come, the next one first (DESIGN CHOICE, log
  entry 3). -/
  pending : List HostMove
deriving DecidableEq, Repr

/-- The reasons a step stops with a fault: none. The spec's three faults are recorded in STATUS and
leave a next state (60 R134), so no constructor stands here and no step can stop (safe: nothing is
left out). -/
inductive Fault where
deriving DecidableEq, Repr

/-- The reasons a step is refused. -/
inductive Refusal where
  /-- Raised by a refused arm of `exec`, for an instruction without a meaning; no arm is refused, so
  no step answers it. Safe: a refused step proves nothing false. -/
  | notModelled (mnemonic : String)
deriving DecidableEq, Repr

/-- STATUS after reset: all fields 0 (10 R13, R28). -/
def Status.reset : Status :=
  { found := false, nf := false, cv := false, fault := false, cause := 0, idx := 0, cr := 0 }

/-- The block right after reset (10 R28, 70 R150): registers, STATUS and RDATA zero, nothing written
in CAND and PROV. The two host fields are the model's: no move pending and `wdata` zero
(DESIGN CHOICE, unsafe: log entries 3 and 4). -/
def State.reset : State :=
  { x := Vector.replicate 16 0
    status := Status.reset
    cand := []
    prov := []
    rdata := 0
    wdata := 0
    pending := [] }

end Sys2Proof.Machine
end

