-- ==== Sys2Proof/Machine/Flags.lean ====
section
/-!
DEFINITION. STATUS as software sees it and every computation of its fields (spec 10 R13; 43 R103;
44 R112; 60 R130, R134).
-/

namespace Sys2Proof.Machine

/-- A STATUS field put at weight `lo` of an otherwise zero word (10 R13). -/
def statusAt {n : Nat} (lo : Nat) (f : BitVec n) : BitVec 20 := f.setWidth 20 <<< lo

/-- The twenty bits of STATUS, each field at its weight (10 R13). -/
def Status.toBits (st : Status) : BitVec 20 :=
  statusAt 0 (BitVec.ofBool st.found) ||| statusAt 1 (BitVec.ofBool st.nf)
    ||| statusAt 2 (BitVec.ofBool st.cv) ||| statusAt 3 (BitVec.ofBool st.fault)
    ||| statusAt 4 st.cause ||| statusAt 8 st.idx ||| statusAt 16 st.cr

/-- The fields of a 20-bit STATUS value, in weight numbering (10 R13). -/
def Status.ofBits (w : BitVec 20) : Status :=
  { found := w.getLsbD 0
    nf := w.getLsbD 1
    cv := w.getLsbD 2
    fault := w.getLsbD 3
    cause := w.extractLsb' 4 4
    idx := w.extractLsb' 8 8
    cr := w.extractLsb' 16 4 }

/-- `zext_64(STATUS)`, the value RDS copies; bits 63..20 read as zero (10 R13, 45 R122). -/
def Status.toWord (st : Status) : Word := st.toBits.setWidth 64

/-- The three fault causes (60 R130). -/
inductive Cause where
  /-- 1: the command word is illegal (60 R131). -/
  | illegalCommand
  /-- 2: the reverse schedule's unresolved count is not 8 (60 R132). -/
  | invariantViolation
  /-- 3: LDC or LDP while `CV = 0` (60 R133). -/
  | candInvalid
deriving DecidableEq, Repr

/-- The code a cause has in `STATUS.CAUSE` (60 R130). -/
def causeCode : Cause → BitVec 4
  | .illegalCommand => 1
  | .invariantViolation => 2
  | .candInvalid => 3

/-- STATUS after fault entry: FAULT and CAUSE, nothing else (60 R134). -/
def Status.afterFault (st : Status) (c : Cause) : Status :=
  { st with fault := true, cause := causeCode c }

/-- STATUS once CAND and PROV hold a completed reverse schedule of round `rnd`: the two fields KSR
and KSRCH share (43 R103, 44 R112 step 1). -/
def Status.afterFill (st : Status) (rnd : RoundIx) : Status :=
  { st with cv := true, cr := BitVec.ofFin rnd }

/-- KSR clears FOUND, NF and IDX (43 R103). -/
def Status.afterKsr (st : Status) : Status :=
  { st with found := false, nf := false, idx := 0 }

/-- KSRCH matched candidate `i` (44 R112 step 2). -/
def Status.afterMatch (st : Status) (i : Nat) : Status :=
  { st with found := true, nf := false, idx := BitVec.ofNat 8 i }

/-- KSRCH tried all 256 candidates without a match (44 R112 step 3; not a fault, 60 R139). -/
def Status.afterExhaustion (st : Status) : Status :=
  { st with found := false, nf := true, idx := 0 }

end Sys2Proof.Machine
end

