-- ==== Sys2Proof/Machine/Ops.lean ====
section
/-!
DEFINITION. The named operations on the state: registers (spec 10 R11), the two memories (20 R40 to
R44), fault entry and the fault gate (60 R134, R135), reset (70 R150) and the outputs (30 R55).
-/

namespace Sys2Proof.Machine

/-! ### General registers -/

/-- `x[r]` (00 R7). -/
def State.readX (s : State) (r : Reg) : Word := s.x.get r

/-- `x[r] <- v`: all 64 bits (00 R7, 10 R11). -/
def State.writeX (s : State) (r : Reg) (v : Word) : State :=
  { s with x := s.x.set r.val v r.isLt }

/-! ### The memories -/

/-- The value at index `k`, or `none` when nothing has been written there since reset. -/
def Memory.read {α : Type} (m : Memory α) (k : Nat) : Option α := m.lookup k

/-- The bulk write: all `n` elements at once, element `k` getting `f k` (20 R44: KSR and KSRCH write
the whole space). -/
def Memory.fill {α : Type} (n : Nat) (f : Nat → α) : Memory α :=
  (List.range n).map fun k => (k, f k)

/-- The canonical form of a memory of `n` elements: strictly rising indices, all below `n`. Nothing
an unlisted index reads as is a listed value, so equal contents are equal data. -/
abbrev Memory.wf {α : Type} (n : Nat) (m : Memory α) : Prop :=
  m.Pairwise (fun c d => c.1 < d.1) ∧ ∀ c ∈ m, c.1 < n

/-- `MemRead(CAND:k, 8)` (00 R7). A word not written since reset is unspecified (10 R28): a free
value, which LDC's check of CV keeps from being read in any state a run reaches. -/
def State.readCand (s : State) (k : Nat) : Word :=
  (Memory.read s.cand k).getD (Config.candUnwritten k)

/-- `MemRead(PROV:q, 1)` (00 R7); unwritten slots as for CAND. -/
def State.readProv (s : State) (q : Nat) : Byte :=
  (Memory.read s.prov q).getD (Config.provUnwritten q)

/-- All 256 words of CAND written at once (10 R14). -/
def State.fillCand (s : State) (f : Nat → Word) : State := { s with cand := Memory.fill 256 f }

/-- All 64 slots of PROV written at once (10 R15). -/
def State.fillProv (s : State) (f : Nat → Byte) : State := { s with prov := Memory.fill 64 f }

/-! ### STATUS and RDATA -/

/-- STATUS replaced; the field computations stand in Flags.lean. -/
def State.setStatus (s : State) (st : Status) : State := { s with status := st }

/-- `RDATA <- v` (45 R121). -/
def State.setRdata (s : State) (v : Word) : State := { s with rdata := v }

/-! ### Faults -/

/-- Fault entry, the one operation every fault goes through (60 R134): FAULT and CAUSE, and nothing
else. There is no handler, no saved context and no return; only reset clears it (60 R136). -/
def State.raise (s : State) (c : Cause) : State := s.setStatus (s.status.afterFault c)

/-- The fault gate (60 R135, R137): with a fault recorded the transaction changes nothing, whatever
it is; else it has its effect. Every command's meaning and the illegal words go through it. -/
def State.gated (s : State) (effect : State → State) : State :=
  if s.status.fault then s else effect s

/-! ### Reset and the outputs -/

/-- Asserting `rst` (70 R150, 10 R28): every piece of the block's state takes its reset value. The
two host fields are not the block's and stay. -/
def State.assertReset (s : State) : State :=
  { State.reset with wdata := s.wdata, pending := s.pending }

/-- The `rdata` output: RDATA (30 R55). -/
def State.rdataOut (s : State) : Word := s.rdata

/-- The `status` output: `STATUS[19:0]`, continuously (30 R55). -/
def State.statusOut (s : State) : BitVec 20 := s.status.toBits

end Sys2Proof.Machine
end

