-- ==== Sys2Proof/Machine/Rom.lean ====
section
/-!
DEFINITION. The fifteen ROM tables (spec 10 R16 to R24), row-major as the spec prints them, and the
properties 10 R25 states of them. The literals are the spec's (FIPS 46-3; DEDUCED, log entry 7); no
command writes them and reset does not change them.
-/

namespace Sys2Proof.Machine

/-- A permutation table: entry `t` of index `i` names source position `t - 1` (10 R16). -/
abbrev PermTable := List Nat

/-- `IP`, 64 entries (10 R17). -/
def romIP : PermTable :=
  [58, 50, 42, 34, 26, 18, 10, 2,
   60, 52, 44, 36, 28, 20, 12, 4,
   62, 54, 46, 38, 30, 22, 14, 6,
   64, 56, 48, 40, 32, 24, 16, 8,
   57, 49, 41, 33, 25, 17, 9, 1,
   59, 51, 43, 35, 27, 19, 11, 3,
   61, 53, 45, 37, 29, 21, 13, 5,
   63, 55, 47, 39, 31, 23, 15, 7]

/-- `FP`, 64 entries (10 R18). -/
def romFP : PermTable :=
  [40, 8, 48, 16, 56, 24, 64, 32,
   39, 7, 47, 15, 55, 23, 63, 31,
   38, 6, 46, 14, 54, 22, 62, 30,
   37, 5, 45, 13, 53, 21, 61, 29,
   36, 4, 44, 12, 52, 20, 60, 28,
   35, 3, 43, 11, 51, 19, 59, 27,
   34, 2, 42, 10, 50, 18, 58, 26,
   33, 1, 41, 9, 49, 17, 57, 25]

/-- `PC1`, 56 entries: half L, then half R (10 R19). -/
def romPC1 : PermTable :=
  [57, 49, 41, 33, 25, 17, 9,
   1, 58, 50, 42, 34, 26, 18,
   10, 2, 59, 51, 43, 35, 27,
   19, 11, 3, 60, 52, 44, 36,
   63, 55, 47, 39, 31, 23, 15,
   7, 62, 54, 46, 38, 30, 22,
   14, 6, 61, 53, 45, 37, 29,
   21, 13, 5, 28, 20, 12, 4]

/-- `PC2`, 48 entries (10 R20). -/
def romPC2 : PermTable :=
  [14, 17, 11, 24, 1, 5,
   3, 28, 15, 6, 21, 10,
   23, 19, 12, 4, 26, 8,
   16, 7, 27, 20, 13, 2,
   41, 52, 31, 37, 47, 55,
   30, 40, 51, 45, 33, 48,
   44, 49, 39, 56, 34, 53,
   46, 42, 50, 36, 29, 32]

/-- `E`, 48 entries, offset by +32: positions of the right half (10 R21). -/
def romE : PermTable :=
  [64, 33, 34, 35, 36, 37,
   36, 37, 38, 39, 40, 41,
   40, 41, 42, 43, 44, 45,
   44, 45, 46, 47, 48, 49,
   48, 49, 50, 51, 52, 53,
   52, 53, 54, 55, 56, 57,
   56, 57, 58, 59, 60, 61,
   60, 61, 62, 63, 64, 33]

/-- `P`, 32 entries (10 R22). -/
def romP : PermTable :=
  [16, 7, 20, 21,
   29, 12, 28, 17,
   1, 15, 23, 26,
   5, 18, 31, 10,
   2, 8, 24, 14,
   32, 27, 3, 9,
   19, 13, 30, 6,
   22, 11, 4, 25]

/-- `Sbox[0]` (S1): four rows of sixteen 4-bit entries (10 R23). -/
def romSbox0 : List (List Nat) :=
  [[14, 4, 13, 1, 2, 15, 11, 8, 3, 10, 6, 12, 5, 9, 0, 7],
   [0, 15, 7, 4, 14, 2, 13, 1, 10, 6, 12, 11, 9, 5, 3, 8],
   [4, 1, 14, 8, 13, 6, 2, 11, 15, 12, 9, 7, 3, 10, 5, 0],
   [15, 12, 8, 2, 4, 9, 1, 7, 5, 11, 3, 14, 10, 0, 6, 13]]

/-- `Sbox[1]` (S2): four rows of sixteen 4-bit entries (10 R23). -/
def romSbox1 : List (List Nat) :=
  [[15, 1, 8, 14, 6, 11, 3, 4, 9, 7, 2, 13, 12, 0, 5, 10],
   [3, 13, 4, 7, 15, 2, 8, 14, 12, 0, 1, 10, 6, 9, 11, 5],
   [0, 14, 7, 11, 10, 4, 13, 1, 5, 8, 12, 6, 9, 3, 2, 15],
   [13, 8, 10, 1, 3, 15, 4, 2, 11, 6, 7, 12, 0, 5, 14, 9]]

/-- `Sbox[2]` (S3): four rows of sixteen 4-bit entries (10 R23). -/
def romSbox2 : List (List Nat) :=
  [[10, 0, 9, 14, 6, 3, 15, 5, 1, 13, 12, 7, 11, 4, 2, 8],
   [13, 7, 0, 9, 3, 4, 6, 10, 2, 8, 5, 14, 12, 11, 15, 1],
   [13, 6, 4, 9, 8, 15, 3, 0, 11, 1, 2, 12, 5, 10, 14, 7],
   [1, 10, 13, 0, 6, 9, 8, 7, 4, 15, 14, 3, 11, 5, 2, 12]]

/-- `Sbox[3]` (S4): four rows of sixteen 4-bit entries (10 R23). -/
def romSbox3 : List (List Nat) :=
  [[7, 13, 14, 3, 0, 6, 9, 10, 1, 2, 8, 5, 11, 12, 4, 15],
   [13, 8, 11, 5, 6, 15, 0, 3, 4, 7, 2, 12, 1, 10, 14, 9],
   [10, 6, 9, 0, 12, 11, 7, 13, 15, 1, 3, 14, 5, 2, 8, 4],
   [3, 15, 0, 6, 10, 1, 13, 8, 9, 4, 5, 11, 12, 7, 2, 14]]

/-- `Sbox[4]` (S5): four rows of sixteen 4-bit entries (10 R23). -/
def romSbox4 : List (List Nat) :=
  [[2, 12, 4, 1, 7, 10, 11, 6, 8, 5, 3, 15, 13, 0, 14, 9],
   [14, 11, 2, 12, 4, 7, 13, 1, 5, 0, 15, 10, 3, 9, 8, 6],
   [4, 2, 1, 11, 10, 13, 7, 8, 15, 9, 12, 5, 6, 3, 0, 14],
   [11, 8, 12, 7, 1, 14, 2, 13, 6, 15, 0, 9, 10, 4, 5, 3]]

/-- `Sbox[5]` (S6): four rows of sixteen 4-bit entries (10 R23). -/
def romSbox5 : List (List Nat) :=
  [[12, 1, 10, 15, 9, 2, 6, 8, 0, 13, 3, 4, 14, 7, 5, 11],
   [10, 15, 4, 2, 7, 12, 9, 5, 6, 1, 13, 14, 0, 11, 3, 8],
   [9, 14, 15, 5, 2, 8, 12, 3, 7, 0, 4, 10, 1, 13, 11, 6],
   [4, 3, 2, 12, 9, 5, 15, 10, 11, 14, 1, 7, 6, 0, 8, 13]]

/-- `Sbox[6]` (S7): four rows of sixteen 4-bit entries (10 R23). -/
def romSbox6 : List (List Nat) :=
  [[4, 11, 2, 14, 15, 0, 8, 13, 3, 12, 9, 7, 5, 10, 6, 1],
   [13, 0, 11, 7, 4, 9, 1, 10, 14, 3, 5, 12, 2, 15, 8, 6],
   [1, 4, 11, 13, 12, 3, 7, 14, 10, 15, 6, 8, 0, 5, 9, 2],
   [6, 11, 13, 8, 1, 4, 10, 7, 9, 5, 0, 15, 14, 2, 3, 12]]

/-- `Sbox[7]` (S8): four rows of sixteen 4-bit entries (10 R23). -/
def romSbox7 : List (List Nat) :=
  [[13, 2, 8, 4, 6, 15, 11, 1, 10, 9, 3, 14, 5, 0, 12, 7],
   [1, 15, 13, 8, 10, 3, 7, 4, 12, 5, 6, 11, 0, 14, 9, 2],
   [7, 11, 4, 1, 9, 12, 14, 2, 0, 6, 10, 13, 15, 3, 5, 8],
   [2, 1, 14, 7, 4, 10, 8, 13, 15, 12, 9, 0, 3, 5, 6, 11]]

/-- The eight substitution tables by group (10 R23). -/
def romSboxes : List (List (List Nat)) :=
  [romSbox0, romSbox1, romSbox2, romSbox3, romSbox4, romSbox5, romSbox6, romSbox7]

/-- `Sbox[g][row][col]`, a 4-bit value (10 R23). -/
def sboxEntry (g row col : Nat) : Nat := ((romSboxes.getD g []).getD row []).getD col 0

/-- `ROT`: the rotation amount of each round (10 R24). -/
def romROT : List Nat := [1, 1, 2, 2, 2, 2, 2, 2, 1, 2, 2, 2, 2, 2, 2, 1]

/-- `ROT[n]` (10 R24). -/
def rotAmount (n : Nat) : Nat := romROT.getD n 0

/-- A table whose every entry names a position of a container, with no more entries than positions. -/
def PermTable.inRange (T : PermTable) : Bool :=
  T.length ≤ 64 && T.all fun t => 1 ≤ t && t ≤ 64

end Sys2Proof.Machine
end

