-- ==== Sys2Proof/Machine/Operands.lean ====
section
/-!
DEFINITION. The operand forms (spec 30 R58): a register, the `wdata` port, a table selector, `ui`,
and the immediates taken as they stand.
-/

namespace Sys2Proof.Machine

/-- The `wdata` operand of the current transaction, read by LDI only (30 R55). -/
def State.readWdata (s : State) : Word := s.wdata

/-- The table a selector names, `Table = [IP, FP, PC1, PC2, E, P]` (40 R72). -/
def tableOf : TableSel → PermTable
  | .ip => romIP
  | .fp => romFP
  | .pc1 => romPC1
  | .pc2 => romPC2
  | .e => romE
  | .p => romP

/-- The block permutation `ui` selects: 1 = initial, 0 = final (30 R58, 40 R73). -/
def blockTableOf (ui : Bool) : PermTable := if ui then romIP else romFP

end Sys2Proof.Machine
end

