-- ==== Sys2Proof/Machine/HostAccess.lean ====
section
/-!
DEFINITION. The host access family (spec 45): the meanings of LDI, RD and RDS.
-/

namespace Sys2Proof.Machine

/-- LDI (45 R120): all 64 bits of `wdata` as they stand. -/
def execLdi (rd : Reg) (s : State) : Host.Outcome State Fault Refusal :=
  .next (s.gated fun s => s.writeX rd s.readWdata)

/-- RD (45 R121): the register to RDATA. -/
def execRd (rs1 : Reg) (s : State) : Host.Outcome State Fault Refusal :=
  .next (s.gated fun s => s.setRdata (s.readX rs1))

/-- RDS (45 R122): STATUS zero-extended to a register; reading clears nothing. -/
def execRds (rd : Reg) (s : State) : Host.Outcome State Fault Refusal :=
  .next (s.gated fun s => s.writeX rd s.status.toWord)

end Sys2Proof.Machine
end

