-- ==== Sys2Proof/Machine/Bits.lean ====
section
/-!
DEFINITION. Position numbering of data values (spec 00 R5, R7; 20 R41): position 0 is the most
significant bit of a 64-bit container.
-/

namespace Sys2Proof.Machine

/-- `bit(v, i) = (v >> (63 - i)) & 1` for `0 <= i <= 63` (00 R5). -/
def bit (v : Word) (i : Nat) : Bool := v.getMsbD i

/-- A bit as a 64-bit value of weight 1. -/
def bitWord (b : Bool) : Word := if b then 1 else 0

/-- `withbit(v, i, b)`: `v` with position `i` replaced by `b` (00 R5). -/
def withBit (v : Word) (i : Nat) (b : Bool) : Word :=
  (v &&& ~~~((1 : Word) <<< (63 - i))) ||| (bitWord b <<< (63 - i))

/-- `field(v, i, n) = (v >> (64 - i - n)) & (2^n - 1)`, an `n`-bit unsigned number (00 R5). -/
def field (v : Word) (i n : Nat) : Nat := (v.toNat >>> (64 - i - n)) % 2 ^ n

/-- Byte `k` of a 64-bit value, positions `8k .. 8k+7`; byte 0 is the most significant (10 R27,
20 R41). -/
def byteOf (v : Word) (k : Nat) : Byte := BitVec.ofNat 8 (field v (8 * k) 8)

end Sys2Proof.Machine
end

