-- ==== Sys2Proof/Machine/BitPermutation.lean ====
section
/-!
DEFINITION. The bit permutation family (spec 40): the functions `setBit` and `ApplyTable`, and the
meanings of SETBIT, APPLY and PERM.
-/

namespace Sys2Proof.Machine

/-- `setBit`: `d | (((s >> (63 - srcPos)) & 1) << (63 - dstPos))` (40 R70). A source bit of 0 changes
nothing, and a position already set stays set: targets OR together (DEDUCED, log entry 6). -/
def setBit (d s : Word) (srcPos dstPos : Nat) : Word :=
  d ||| (((s >>> (63 - srcPos)) &&& 1) <<< (63 - dstPos))

/-- The loop of `applyTable` from table index `i` on: `setBit(output, input, table[i] - 1, i)`
(40 R71). -/
def applyFrom (v : Word) : PermTable → Nat → Word → Word
  | [], _, out => out
  | t :: ts, i, out => applyFrom v ts (i + 1) (setBit out v (t - 1) i)

/-- `ApplyTable(T, v)`: the loop over the whole table, output initialized to zero (40 R71). -/
def applyTable (T : PermTable) (v : Word) : Word := applyFrom v T 0 0

/-- SETBIT (40 R70). -/
def execSetbit (rd rs1 : Reg) (srcPos dstPos : Pos) (s : State) :
    Host.Outcome State Fault Refusal :=
  .next (s.gated fun s => s.writeX rd (setBit (s.readX rd) (s.readX rs1) srcPos.val dstPos.val))

/-- APPLY (40 R72). -/
def execApply (rd rs1 : Reg) (tbl : TableSel) (s : State) : Host.Outcome State Fault Refusal :=
  .next (s.gated fun s => s.writeX rd (applyTable (tableOf tbl) (s.readX rs1)))

/-- PERM (40 R73). -/
def execPerm (rd rs1 : Reg) (ui : Bool) (s : State) : Host.Outcome State Fault Refusal :=
  .next (s.gated fun s => s.writeX rd (applyTable (blockTableOf ui) (s.readX rs1)))

end Sys2Proof.Machine
end

