-- ==== Sys2Proof/Machine/FeistelRound.lean ====
section
/-!
DEFINITION. The Feistel round (spec 42): `Substitute`, `F`, `Round`, `Swap32`, and the meanings of
FRND and SWAP.
-/

namespace Sys2Proof.Machine

/-- A bit as a number 0 or 1. -/
def bitNat (v : Word) (i : Nat) : Nat := (bit v i).toNat

/-- The S-box output of 6-bit group `g` of `w` (42 R90): the first and sixth bits select the row, the
middle four the column. -/
def sboxNibble (w : Word) (g : Nat) : Nat :=
  sboxEntry g (2 * bitNat w (6 * g) + bitNat w (6 * g + 5)) (field w (6 * g + 1) 4)

/-- `Substitute(w)`: eight nibbles, nibble `g` at positions `4g .. 4g+3` (42 R90). -/
def substitute (w : Word) : Word :=
  (List.range 8).foldl (fun out g => out ||| (BitVec.ofNat 64 (sboxNibble w g) <<< (60 - 4 * g))) 0

/-- `F(d, k)`: expansion, key mixing 48 bits wide, substitution, permutation (42 R91). -/
def feistelF (d k : Word) : Word :=
  applyTable romP (substitute (applyTable romE d ^^^ (k &&& 0xFFFFFFFFFFFF0000)))

/-- `Round(d, k)`: new left = old right, new right = `F` XOR old left (42 R92). -/
def feistelRound (d k : Word) : Word :=
  let nr := feistelF d k ^^^ (d &&& 0xFFFFFFFF00000000)
  (d <<< 32) ||| (nr >>> 32)

/-- `Swap32(v)`: the two 32-bit halves change places (42 R94). -/
def swap32 (v : Word) : Word := (v <<< 32) ||| (v >>> 32)

/-- FRND (42 R93). -/
def execFrnd (rd rs1 rs2 : Reg) (s : State) : Host.Outcome State Fault Refusal :=
  .next (s.gated fun s => s.writeX rd (feistelRound (s.readX rs1) (s.readX rs2)))

/-- SWAP (42 R95). -/
def execSwap (rd rs1 : Reg) (s : State) : Host.Outcome State Fault Refusal :=
  .next (s.gated fun s => s.writeX rd (swap32 (s.readX rs1)))

end Sys2Proof.Machine
end

