-- ==== Sys2Proof/Machine/KeyScheduleForward.lean ====
section
/-!
DEFINITION. The forward key schedule (spec 41): `KeyStep`, `Subkeys`, and the meaning of KSF.
-/

namespace Sys2Proof.Machine

/-- Both 28-bit halves of a schedule state rotated left by `r`, built position by position; positions
56..63 are 0 (41 R80). -/
def rotateHalves (r : Nat) (st : Word) : Word :=
  (List.range 28).foldl
    (fun ns j =>
      withBit (withBit ns j (bit st ((j + r) % 28))) (28 + j) (bit st (28 + (j + r) % 28)))
    0

/-- The schedule state `KeyStep` rotates: PC1 of the master key in round 0, the operand itself in
rounds 1..15 (41 R80). -/
def stepState (n : Nat) (v : Word) : Word := if n = 0 then applyTable romPC1 v else v

/-- `KeyStep(n, v) = (rk, ns)` (41 R80). -/
def keyStep (n : Nat) (v : Word) : Word × Word :=
  let ns := rotateHalves (rotAmount n) (stepState n v)
  (applyTable romPC2 ns, ns)

/-- Round keys of the listed rounds, each round's next state threaded into the next (41 R82). -/
def subkeysFrom : List Nat → Word → List Word
  | [], _ => []
  | n :: ns, v => (keyStep n v).1 :: subkeysFrom ns (keyStep n v).2

/-- `Subkeys(K)`, the sixteen round keys of a master key (41 R82). -/
def subkeys (K : Word) : List Word := subkeysFrom (List.range 16) K

/-- `rk[n]`, element `n` of `Subkeys(K)`. -/
def subkey (K : Word) (n : Nat) : Word := (subkeys K).getD n 0

/-- KSF's effect: the source is read first, then `rd2` gets the next state and `rd` the round key
(41 R81). -/
def ksfEffect (rd rd2 rs1 : Reg) (rnd : RoundIx) (s : State) : State :=
  let r := keyStep rnd.val (s.readX rs1)
  (s.writeX rd2 r.2).writeX rd r.1

/-- KSF (41 R81); `rd = rd2` is an illegal command. -/
def execKsf (rd rd2 rs1 : Reg) (rnd : RoundIx) (s : State) : Host.Outcome State Fault Refusal :=
  .next (s.gated fun s =>
    if rd = rd2 then s.raise .illegalCommand else ksfEffect rd rd2 rs1 rnd s)

end Sys2Proof.Machine
end

