-- ==== Sys2Proof/Machine/KeyScheduleReverse.lean ====
section
/-!
DEFINITION. The reverse key schedule (spec 43): tracing, the provenance map with its check, the
candidates, and the meanings of KSR, LDC and LDP.
-/

namespace Sys2Proof.Machine

/-! ### Tracing positions forward (43 R100) -/

/-- One rotation of the 56-slot index array: both 28-slot halves left by `r` (43 R100 step 2). -/
def rotateTrace (r : Nat) (t : List Nat) : List Nat :=
  (List.range 28).map (fun j => t.getD ((j + r) % 28) 0)
    ++ (List.range 28).map (fun j => t.getD (28 + (j + r) % 28) 0)

/-- Steps 1 and 2 for given tables: PC1's source positions, 0-indexed, rotated for rounds 0 to `R`
inclusive. -/
def traceOf (pc1 : PermTable) (rot : List Nat) (R : Nat) : List Nat :=
  (List.range (R + 1)).foldl (fun t k => rotateTrace (rot.getD k 0) t) (pc1.map (· - 1))

/-- Step 3 for given tables: slot `i` holds the master-key position feeding round-key bit `i`. -/
def rkSrcOf (pc1 pc2 : PermTable) (rot : List Nat) (R : Nat) : List Nat :=
  pc2.map fun t => (traceOf pc1 rot R).getD (t - 1) 0

/-- `Trace56(R)` of the ROM (43 R100). -/
def trace56 (R : Nat) : List Nat := traceOf romPC1 romROT R

/-- `RkSrc(R)` of the ROM (43 R100). -/
def rkSrc (R : Nat) : List Nat := rkSrcOf romPC1 romPC2 romROT R

/-! ### The provenance map (43 R101) -/

/-- The three classes of a provenance slot (10 R15; conflict C2). -/
inductive Slot where
  /-- The position equals round-key position `p`. -/
  | determined (p : Nat)
  /-- A data position no round-key position feeds from. -/
  | unresolved
  /-- A parity position. -/
  | parity
deriving DecidableEq, Repr

/-- The stored form of a slot (10 R15). -/
def slotByte : Slot → Byte
  | .determined p => BitVec.ofNat 8 p
  | .unresolved => 0x80
  | .parity => 0xC0

/-- The class of master-key position `q` when `src` is the 48-slot array (43 R101). -/
def slotOf (src : List Nat) (q : Nat) : Slot :=
  if q % 8 = 7 then .parity
  else match src.findIdx? (· == q) with
    | some i => .determined i
    | none => .unresolved

/-- The 64-slot map of a 48-slot array, before the check. -/
def slotsOf (src : List Nat) : List Slot := (List.range 64).map (slotOf src)

/-- The number of unresolved positions (43 R101). -/
def unresolvedCount (m : List Slot) : Nat := m.countP (· == .unresolved)

/-- The map with its check (43 R101, step 6): `none` when the number of unresolved positions is not
8, which is the fault `InvariantViolation`. -/
def checkedMap (src : List Nat) : Option (List Slot) :=
  if unresolvedCount (slotsOf src) = 8 then some (slotsOf src) else none

/-- `ProvMap(R)` of the ROM (43 R101). -/
def provMap (R : Nat) : Option (List Slot) := checkedMap (rkSrc R)

/-! ### Candidates (43 R102) -/

/-- The parity bit of the byte that ends at position `q`: the XOR of its seven data bits, complemented
when `pc` (43 R102). -/
def parityBit (pc : Bool) (K : Word) (q : Nat) : Bool :=
  (bit K (q - 7) ^^ bit K (q - 6) ^^ bit K (q - 5) ^^ bit K (q - 4) ^^ bit K (q - 3) ^^
    bit K (q - 2) ^^ bit K (q - 1)) ^^ pc

/-- The scan of 43 R102 from position `q` on: `n` unresolved slots have been met and `K` holds the
positions before `q`. -/
def fillSlots (pc : Bool) (rk : Word) (i : Nat) : List Slot → Nat → Nat → Word → Word
  | [], _, _, K => K
  | .determined p :: ms, q, n, K => fillSlots pc rk i ms (q + 1) n (withBit K q (bit rk p))
  | .unresolved :: ms, q, n, K =>
      fillSlots pc rk i ms (q + 1) (n + 1) (withBit K q (i.testBit (7 - n)))
  | .parity :: ms, q, n, K => fillSlots pc rk i ms (q + 1) n (withBit K q (parityBit pc K q))

/-- The candidate of index `i` for a provenance map `m` (43 R102). -/
def candidateOf (pc : Bool) (m : List Slot) (rk : Word) (i : Nat) : Word :=
  fillSlots pc rk i m 0 0 0

/-- `Candidate(rk, R, i)` with `PARITY_COMPLEMENT = pc` (43 R102). -/
def candidate (pc : Bool) (rk : Word) (R i : Nat) : Word :=
  candidateOf pc ((provMap R).getD []) rk i

/-! ### The commands -/

/-- The writes KSR and KSRCH share (43 R103, 44 R112 step 1): all of PROV, all of CAND, CV and CR. -/
def fillSchedule (pc : Bool) (m : List Slot) (rk : Word) (rnd : RoundIx) (s : State) : State :=
  let s1 := s.fillProv fun q => slotByte (m.getD q .parity)
  let s2 := s1.fillCand (candidateOf pc m rk)
  s2.setStatus (s2.status.afterFill rnd)

/-- KSR's effect for a checked map (43 R103); a failed check raises `InvariantViolation` and writes
nothing. -/
def ksrEffect (pc : Bool) (map : Option (List Slot)) (rs1 : Reg) (rnd : RoundIx) (s : State) :
    State :=
  match map with
  | none => s.raise .invariantViolation
  | some m =>
    let s1 := fillSchedule pc m (s.readX rs1) rnd s
    s1.setStatus s1.status.afterKsr

/-- KSR (43 R103). -/
def execKsr (rs1 : Reg) (rnd : RoundIx) (s : State) : Host.Outcome State Fault Refusal :=
  .next (s.gated (ksrEffect Config.parityComplement (provMap rnd.val) rs1 rnd))

/-- LDC (43 R105): `CandInvalid` while `CV = 0`. -/
def execLdc (rd : Reg) (idx8 : CandIx) (s : State) : Host.Outcome State Fault Refusal :=
  .next (s.gated fun s =>
    if s.status.cv then s.writeX rd (s.readCand idx8.val) else s.raise .candInvalid)

/-- LDP (43 R106): the slot zero-extended; `CandInvalid` while `CV = 0`. -/
def execLdp (rd : Reg) (idx6 : Pos) (s : State) : Host.Outcome State Fault Refusal :=
  .next (s.gated fun s =>
    if s.status.cv then s.writeX rd ((s.readProv idx6.val).setWidth 64) else s.raise .candInvalid)

end Sys2Proof.Machine
end

