-- ==== Sys2Proof/Machine/KeyRecoverySearch.lean ====
section
/-!
DEFINITION. Encryption and the key recovery search (spec 44): `Encrypt`, the first matching
candidate, and the meanings of ENC and KSRCH.
-/

namespace Sys2Proof.Machine

/-- `Encrypt(K, P)` (44 R110): IP, sixteen rounds with the subkeys in order, the half swap, FP. -/
def encrypt (K P : Word) : Word :=
  applyTable romFP (swap32 ((subkeys K).foldl feistelRound (applyTable romIP P)))

/-- ENC (44 R111). -/
def execEnc (rd rs1 rs2 : Reg) (s : State) : Host.Outcome State Fault Refusal :=
  .next (s.gated fun s => s.writeX rd (encrypt (s.readX rs1) (s.readX rs2)))

/-- The lowest index whose stored candidate encrypts `pt` to `ct`, in ascending order, first match
wins (44 R112 step 2). -/
def firstMatch (s : State) (pt ct : Word) : Option Nat :=
  (List.range 256).find? fun i => encrypt (s.readCand i) pt == ct

/-- Steps 2 and 3 of the search over the candidates just stored (44 R112): the matching candidate and
FOUND, NF, IDX, or 0 and the outcome key-not-found. -/
def searchStored (rd : Reg) (pt ct : Word) (s : State) : State :=
  match firstMatch s pt ct with
  | some i => (s.writeX rd (s.readCand i)).setStatus (s.status.afterMatch i)
  | none => (s.writeX rd 0).setStatus s.status.afterExhaustion

/-- KSRCH's effect for a checked map (44 R112): all three sources are read first. -/
def ksrchEffect (pc : Bool) (map : Option (List Slot)) (rd rs1 rs2 rs3 : Reg) (rnd : RoundIx)
    (s : State) : State :=
  match map with
  | none => s.raise .invariantViolation
  | some m =>
    searchStored rd (s.readX rs2) (s.readX rs3) (fillSchedule pc m (s.readX rs1) rnd s)

/-- KSRCH (44 R112). -/
def execKsrch (rd rs1 rs2 rs3 : Reg) (rnd : RoundIx) (s : State) :
    Host.Outcome State Fault Refusal :=
  .next (s.gated (ksrchEffect Config.parityComplement (provMap rnd.val) rd rs1 rs2 rs3 rnd))

end Sys2Proof.Machine
end

