-- ==== Sys2Proof/Machine/Dispatch.lean ====
section
/-!
DEFINITION. One arm per command (spec 30 R59), each a direct call of its meaning.
-/

namespace Sys2Proof.Machine

def exec (i : Instr) (s : State) : Host.Outcome State Fault Refusal :=
  match i with
  -- host access (45)
  | .ldi rd => Sys2Proof.Machine.execLdi rd s
  | .rdReg rs1 => Sys2Proof.Machine.execRd rs1 s
  | .rds rd => Sys2Proof.Machine.execRds rd s
  -- bit permutation (40)
  | .setbit rd rs1 srcPos dstPos => Sys2Proof.Machine.execSetbit rd rs1 srcPos dstPos s
  | .apply rd rs1 tbl => Sys2Proof.Machine.execApply rd rs1 tbl s
  | .perm rd rs1 ui => Sys2Proof.Machine.execPerm rd rs1 ui s
  -- forward key schedule (41)
  | .ksf rd rd2 rs1 rnd => Sys2Proof.Machine.execKsf rd rd2 rs1 rnd s
  -- Feistel round (42)
  | .frnd rd rs1 rs2 => Sys2Proof.Machine.execFrnd rd rs1 rs2 s
  | .swap rd rs1 => Sys2Proof.Machine.execSwap rd rs1 s
  -- reverse key schedule (43)
  | .ksr rs1 rnd => Sys2Proof.Machine.execKsr rs1 rnd s
  | .ldc rd idx8 => Sys2Proof.Machine.execLdc rd idx8 s
  | .ldp rd idx6 => Sys2Proof.Machine.execLdp rd idx6 s
  -- key recovery search (44)
  | .ksrch rd rs1 rs2 rs3 rnd => Sys2Proof.Machine.execKsrch rd rs1 rs2 rs3 rnd s
  | .enc rd rs1 rs2 => Sys2Proof.Machine.execEnc rd rs1 rs2 s

end Sys2Proof.Machine
end

