-- ==== Sys2Proof/Machine/Transaction.lean ====
section
/-!
DEFINITION. What one host move does (spec 30 R55; 60 R131, R134, R135, R137; 70 R150).
-/

namespace Sys2Proof.Machine

/-- The host has presented `w` on `cmd` and `v` on `wdata`, and `rest` is still to come. -/
def State.present (s : State) (v : Word) (rest : List HostMove) : State :=
  { s with wdata := v, pending := rest }

/-- One command word executed on the state it is presented to: a legal word runs its command, an
illegal one raises `IllegalCommand` through the same gate (60 R131, R135, R137). -/
def runCommand (w : CmdWord) (s : State) : Host.Outcome State Fault Refusal :=
  match decode w with
  | .ok i => exec i s
  | .error _ => .next (s.gated fun s => s.raise .illegalCommand)

/-- The next host move taken: a transaction is executed completely (30 R55), `rst` resets the block
(70 R150), and with no move left the block is idle and keeps all state (60 R142). -/
def takeMove (s : State) : Host.Outcome State Fault Refusal :=
  match s.pending with
  | [] => .next s
  | .transaction t :: rest => runCommand t.cmd (s.present t.wdata rest)
  | .reset :: rest => .next { s.assertReset with pending := rest }

/-- `s` with a command word as the host's next transaction, in front of the moves that were pending;
the `wdata` port keeps its value. -/
def State.withNextCommand (s : State) (w : CmdWord) : State :=
  { s with pending := .transaction ⟨w, s.wdata⟩ :: s.pending }

end Sys2Proof.Machine
end

