-- ==== Sys2Proof/Machine/Step.lean ====
section
/-!
DEFINITION. One step of the machine: the host's next move, and the host's word placed as that move.
-/

namespace Sys2Proof.Machine

/-- One step: the next host move is taken (00 R9, 10 R12). -/
def step (s : State) : Host.Outcome State Fault Refusal := takeMove s

/-- `s` with a table word as the host's next transaction (DESIGN CHOICE, log entry 3): the
block fetches nothing (10 R12), so the next command stands at the front of the host's moves. -/
def State.withFetchWord (s : State) (nbits w : Nat) : State :=
  s.withNextCommand (BitVec.ofNat 32 (w % 2 ^ nbits))

end Sys2Proof.Machine
end

