-- ==== Sys2Proof/Safety.lean ====
section
/-!
DEFINITION. The terms claims are stated in: a running and a final state (spec 00 R9), what a command
leaves unchanged, the machine's invariant, a key with recomputed parity (43 R104), and the host's
SETBIT contract (70 R152, 93 U1).
-/

namespace Sys2Proof.Machine

/-- No fault is recorded, so the block executes the next command (60 R135). -/
def Running (s : State) : Prop := s.status.fault = false

/-- The run is over: the host's moves are used up and no fault is recorded (00 R9). -/
def Final (s : State) : Prop := s.pending = [] ∧ Running s

/-- `t` equals `s` but for the general registers in `ds`: STATUS, every element of CAND and PROV,
RDATA and the host's fields are unchanged. -/
structure OnlyRegs (ds : List Reg) (s t : State) : Prop where
  regs : ∀ r, r ∉ ds → t.readX r = s.readX r
  status : t.status = s.status
  cand : ∀ k, Memory.read t.cand k = Memory.read s.cand k
  prov : ∀ k, Memory.read t.prov k = Memory.read s.prov k
  rdata : t.rdata = s.rdata
  wdata : t.wdata = s.wdata
  pending : t.pending = s.pending

/-- `t` is `s` after fault entry with cause `c`: FAULT and CAUSE, and nothing else (60 R134). -/
structure OnlyFault (c : Cause) (s t : State) : Prop where
  fault : t.status.fault = true
  cause : t.status.cause = causeCode c
  found : t.status.found = s.status.found
  nf : t.status.nf = s.status.nf
  cv : t.status.cv = s.status.cv
  idx : t.status.idx = s.status.idx
  cr : t.status.cr = s.status.cr
  regs : ∀ r, t.readX r = s.readX r
  cand : ∀ k, Memory.read t.cand k = Memory.read s.cand k
  prov : ∀ k, Memory.read t.prov k = Memory.read s.prov k
  rdata : t.rdata = s.rdata
  wdata : t.wdata = s.wdata
  pending : t.pending = s.pending

/-- What every step keeps (10 R13 to R15; 43 R103; 44 R112; 60 R130): the relations between the
fields of STATUS and, while `CV = 1`, that PROV and CAND hold the reverse schedule of round `CR` for
some round key. The plaintext and ciphertext of a search are not state, so `foundIndex` and
`nfExhausted` say only that some pair would have that outcome. `candWf`, `provWf` and
`unwrittenBefore` are the model's representation of the memories (log entries 8 and 2). -/
structure Inv (s : State) : Prop where
  causeClear : s.status.fault = false → s.status.cause = 0
  causeRecorded : s.status.fault = true →
    s.status.cause = causeCode .illegalCommand ∨ s.status.cause = causeCode .candInvalid
  oneOutcome : ¬(s.status.found = true ∧ s.status.nf = true)
  idxClear : s.status.found = false → s.status.idx = 0
  outcomeNeedsFill : s.status.found = true ∨ s.status.nf = true → s.status.cv = true
  crClear : s.status.cv = false → s.status.cr = 0
  unwrittenBefore : s.status.cv = false → s.cand = [] ∧ s.prov = []
  candWf : Memory.wf 256 s.cand
  provWf : Memory.wf 64 s.prov
  provOfRound : s.status.cv = true →
    ∀ q, q < 64 → s.readProv q = slotByte (slotOf (rkSrc s.status.cr.toNat) q)
  candOfRound : s.status.cv = true → ∃ rk, ∀ i, i < 256 →
    s.readCand i = candidate Config.parityComplement rk s.status.cr.toNat i
  foundIndex : s.status.found = true →
    ∃ pt ct, firstMatch s pt ct = some s.status.idx.toNat
  nfExhausted : s.status.nf = true → ∃ pt ct, firstMatch s pt ct = none

/-- A key with every parity position replaced by the bit 43 R102 computes for it ("K with recomputed
parity", 43 R104 item 4). -/
def withParity (pc : Bool) (K : Word) : Word :=
  (List.range 8).foldl (fun v k => withBit v (8 * k + 7) (parityBit pc v (8 * k + 7))) K

/-- The unresolved positions `u0 < u1 < ... < u7` of round `R` (43 R107). -/
def unresolvedOf (R : Nat) : List Nat :=
  (List.range 64).filter fun q => slotOf (rkSrc R) q == .unresolved

/-- The 8-bit number a key's bits at `u0 .. u7` form, `u0` the most significant: the key's index among
its candidates (43 R104 item 4). -/
def indexOfKey (K : Word) (R : Nat) : Nat :=
  (unresolvedOf R).foldl (fun n u => 2 * n + (bit K u).toNat) 0

/-- Several commands one after the other, each by `exec`, stopping at the first outcome that is not a
next state. -/
def execAll : List Instr → State → Host.Outcome State Fault Refusal
  | [], s => .next s
  | i :: is, s =>
    match exec i s with
    | .next t => execAll is t
    | .fault r => .fault r
    | .refused r => .refused r

/-! ### The host's SETBIT contract (70 R152) -/

/-- The registers a command writes whole, which ends a buffer's lifetime (70 R152). -/
def wholeWrites : Instr → List Reg
  | .ldi d => [d]
  | .rdReg _ => []
  | .rds d => [d]
  | .setbit _ _ _ _ => []
  | .apply d _ _ => [d]
  | .perm d _ _ => [d]
  | .ksf d d2 _ _ => [d, d2]
  | .frnd d _ _ => [d]
  | .swap d _ => [d]
  | .ksr _ _ => []
  | .ldc d _ => [d]
  | .ldp d _ => [d]
  | .ksrch d _ _ _ _ => [d]
  | .enc d _ _ => [d]

/-- What the contract asks of one command when `targets` are the (buffer, position) pairs SETBIT has
targeted since each buffer's last whole write (70 R152, 93 U1): no pair twice, and a buffer's first
SETBIT finds it zero. -/
def setbitAllowed (targets : List (Reg × Pos)) (s : State) : Instr → Bool
  | .setbit d _ _ dst =>
      !targets.contains (d, dst) && (targets.any (fun t => t.1 == d) || s.readX d == 0)
  | _ => true

/-- The pairs after the command. -/
def nextTargets (targets : List (Reg × Pos)) (i : Instr) : List (Reg × Pos) :=
  match i with
  | .setbit d _ _ dst => (d, dst) :: targets
  | _ => targets.filter fun t => !(wholeWrites i).contains t.1

/-- Whether a command list keeps the SETBIT contract of 70 R152, run from `s`. The machine does not
check it: it computes the OR for a list that breaks it (40 R70, log entry 6). -/
def setbitContract (targets : List (Reg × Pos)) : List Instr → State → Bool
  | [], _ => true
  | i :: is, s =>
    setbitAllowed targets s i &&
      match exec i s with
      | .next t => setbitContract (nextTargets targets i) is t
      | .fault _ => true
      | .refused _ => true

end Sys2Proof.Machine
end

