-- ==== Sys2Proof/Certificates/Slice0/Obligations.lean ====
section
/-!
DEFINITION. The statements for the provers, each from a numbered rule of the spec (or, where its entry
says derived, from the sections it cites). `Running s` says that no fault is recorded. The fields
`pending` and `wdata` are the model's own (log entries 3 and 4): wherever a statement, `OnlyRegs` or
`OnlyFault` says something of them, that clause is the model's choice and no rule's.
-/

open Sys2Proof Sys2Proof.Machine

/-! ### Reset, moves and steps -/

/-- 70 R150, 10 R28: asserting `rst` gives every piece of the block's state its reset value, clears a
recorded fault and leaves the host's moves alone. CAND and PROV are unspecified after reset (nothing
is listed) and unreadable: LDC and LDP fault. R28 says only that CAND and PROV are unspecified: that
both read `none` is the model's choice (log entry 2), and so is what is said of `pending` and `wdata`
(log entries 3 and 4). -/
def Obligations.ResetMoveGivesTheResetState : Prop :=
  ∀ (s : State) (rest : List HostMove), s.pending = .reset :: rest →
    ∃ t, step s = .next t ∧ (∀ r, t.readX r = 0) ∧ t.rdata = 0 ∧ t.statusOut = 0 ∧
      t.status.found = false ∧ t.status.nf = false ∧ t.status.cv = false ∧
      t.status.fault = false ∧ t.status.cause = 0 ∧ t.status.idx = 0 ∧ t.status.cr = 0 ∧
      (∀ k, Memory.read t.cand k = none) ∧ (∀ q, Memory.read t.prov q = none) ∧
      t.pending = rest ∧ t.wdata = s.wdata ∧
      (∀ rd idx, ∃ u, exec (.ldc rd idx) t = .next u ∧ OnlyFault .candInvalid t u) ∧
      (∀ rd idx, ∃ u, exec (.ldp rd idx) t = .next u ∧ OnlyFault .candInvalid t u)

/-- The machine invariant holds right after reset. Its clauses `candWf`, `provWf` and
`unwrittenBefore` are the model's representation (log entries 8 and 2, DESIGN CHOICE), no rule's. -/
def Obligations.InvariantHoldsAtReset : Prop := Inv State.reset

/-- Every step keeps the machine invariant: STATUS stays consistent, and while `CV = 1` PROV and CAND
hold the reverse schedule of round `CR` for some round key. Of a search's outcome it says only what the
state can show without the plaintext and ciphertext: `IDX` is the first match for some pair, and `NF`
goes with a pair that no stored candidate matches. The clauses `candWf`, `provWf` and `unwrittenBefore`
are the model's representation (log entries 8 and 2, DESIGN CHOICE), no rule's. -/
def Obligations.EveryStepKeepsTheInvariant : Prop :=
  ∀ s t : State, Inv s → step s = .next t → Inv t

/-- 30 R55: a transaction whose word decodes to `i` runs `i`, on the state in which `wdata` carries
the transaction's operand and the move is taken; nothing else is done around `exec`. Of `pending` and
`wdata`: log entries 3 and 4, the model's choice. -/
def Obligations.StepRunsTheDecodedCommand : Prop :=
  ∀ (s : State) (w : CmdWord) (v : Word) (rest : List HostMove) (i : Instr),
    s.pending = .transaction ⟨w, v⟩ :: rest → decode w = .ok i →
    ∃ u, step s = exec i u ∧ u.wdata = v ∧ u.pending = rest ∧ u.x = s.x ∧ u.status = s.status ∧
      u.cand = s.cand ∧ u.prov = s.prov ∧ u.rdata = s.rdata

/-- 10 R12: a step takes exactly the next move of the host, whether the command is executed, faults or
is ignored, and no command changes what follows; with no move left the block keeps all state. The list
`pending` is the model's form of the position (log entry 3). -/
def Obligations.StepTakesExactlyTheNextMove : Prop :=
  (∀ s t : State, step s = .next t → t.pending = s.pending.tail) ∧
  (∀ s : State, s.pending = [] → step s = .next s)

/-- 00 R9: every step is defined: the block answers every move in every state with a next state. -/
def Obligations.EveryStepAnswersANextState : Prop := ∀ s : State, ∃ t, step s = .next t

/-- 60 R131, R134: an illegal word executed on a running block records `IllegalCommand` and changes
nothing else. Of `pending` and `wdata`: log entries 3 and 4, the model's choice. -/
def Obligations.IllegalWordRecordsTheFaultAlone : Prop :=
  ∀ (s : State) (w : CmdWord) (v : Word) (rest : List HostMove) (e : Illegal), Running s →
    s.pending = .transaction ⟨w, v⟩ :: rest → decode w = .error e →
    ∃ t, step s = .next t ∧ OnlyFault .illegalCommand (s.present v rest) t

/-- 60 R135: while a fault is recorded every transaction is ignored, whatever its word and operand. -/
def Obligations.RecordedFaultIgnoresEveryTransaction : Prop :=
  (∀ (s : State) (w : CmdWord) (v : Word) (rest : List HostMove), s.status.fault = true →
    s.pending = .transaction ⟨w, v⟩ :: rest →
    ∃ t, step s = .next t ∧ t.x = s.x ∧ t.status = s.status ∧ t.cand = s.cand ∧ t.prov = s.prov ∧
      t.rdata = s.rdata ∧ t.rdataOut = s.rdataOut ∧ t.statusOut = s.statusOut) ∧
  (∀ (i : Instr) (s : State), s.status.fault = true → exec i s = .next s)

/-- 60 R136: only the reset move clears a recorded fault and its cause; any other step keeps both, so
no second fault is recorded. -/
def Obligations.OnlyResetClearsAFault : Prop :=
  ∀ s t : State, s.status.fault = true → step s = .next t →
    ((∃ rest, s.pending = .reset :: rest) ∧ t.status.fault = false ∧ t.status.cause = 0) ∨
      ((∀ rest, s.pending ≠ .reset :: rest) ∧ t.status.fault = true ∧ t.status.cause = s.status.cause)

/-- 60 R130, R132: a command of a running block records a fault only where the table of causes lists
it: KSF with one destination, and LDC or LDP while `CV = 0`. Of `pending` and `wdata`: log entries 3
and 4, the model's choice. -/
def Obligations.LegalCommandsFaultOnlyWhereListed : Prop :=
  ∀ (i : Instr) (s t : State), Running s → exec i s = .next t → t.status.fault = true →
    (∃ rd rs1 rnd, i = .ksf rd rd rs1 rnd ∧ OnlyFault .illegalCommand s t) ∨
    (((∃ rd idx, i = .ldc rd idx) ∨ (∃ rd idx, i = .ldp rd idx)) ∧ s.status.cv = false ∧
      OnlyFault .candInvalid s t)

/-- 60 R134: fault entry is precise: whichever move makes a running block record a fault changes FAULT
and CAUSE and nothing else of the block; the cause is that of the faulting command. Of `pending` and
`wdata`: log entries 3 and 4, the model's choice. -/
def Obligations.FaultEntryChangesNothingElse : Prop :=
  ∀ s t : State, Running s → step s = .next t → t.status.fault = true →
    ∃ c w v rest, s.pending = .transaction ⟨w, v⟩ :: rest ∧ OnlyFault c (s.present v rest) t ∧
      ((c = .illegalCommand ∧ ∃ e, decode w = .error e) ∨
        (c = .candInvalid ∧ s.status.cv = false ∧
          ∃ rd, (∃ idx, decode w = .ok (.ldc rd idx)) ∨ ∃ idx, decode w = .ok (.ldp rd idx)))

/-- 43 R107, 60 R132: with the spec's tables no step records `InvariantViolation`. -/
def Obligations.InvariantViolationIsNeverRecorded : Prop :=
  ∀ s t : State, step s = .next t → t.status.cause = causeCode .invariantViolation →
    s.status.cause = causeCode .invariantViolation

/-- 10 R10: each component is written only by the commands its row lists: registers by neither RD nor
KSR, CAND and PROV by KSR and KSRCH, RDATA by RD, and the STATUS fields that are not FAULT and CAUSE
by KSR and KSRCH; the host's fields by no command. Of `pending` and `wdata`: log entries 3 and 4, the
model's choice. -/
def Obligations.EachComponentHasItsWriters : Prop :=
  ∀ (i : Instr) (s t : State), exec i s = .next t →
    t.wdata = s.wdata ∧ t.pending = s.pending ∧
    ((∀ rs1, i ≠ .rdReg rs1) → t.rdata = s.rdata) ∧
    ((∀ rs1 rnd, i ≠ .ksr rs1 rnd) → (∀ rd rs1 rs2 rs3 rnd, i ≠ .ksrch rd rs1 rs2 rs3 rnd) →
      (∀ k, Memory.read t.cand k = Memory.read s.cand k) ∧
      (∀ q, Memory.read t.prov q = Memory.read s.prov q) ∧
      t.status.found = s.status.found ∧ t.status.nf = s.status.nf ∧ t.status.cv = s.status.cv ∧
      t.status.idx = s.status.idx ∧ t.status.cr = s.status.cr) ∧
    ((∃ rs1, i = .rdReg rs1) ∨ (∃ rs1 rnd, i = .ksr rs1 rnd) → ∀ r, t.readX r = s.readX r)

/-- 30 R55: `wdata` is read by LDI only: every other command does the same whatever it carries.
That State holds the port is the model's choice (log entry 4). -/
def Obligations.OnlyLdiReadsWdata : Prop :=
  ∀ (i : Instr) (s t : State) (v : Word), (∀ rd, i ≠ .ldi rd) → exec i s = .next t →
    exec i { s with wdata := v } = .next { t with wdata := v }

/-- 60 R133, 10 R28: the unspecified contents of CAND and PROV never reach anything: two states that
differ only there, with `CV = 0`, are taken by every command to states that differ at most there, and
not at all once `CV = 1`. That an unwritten element has a value at all is log entry 2. -/
def Obligations.UnwrittenMemoryIsUnobservable : Prop :=
  ∀ (i : Instr) (s t : State) (c : Memory Word) (p : Memory Byte), s.status.cv = false →
    exec i s = .next t →
    ∃ c' p', exec i { s with cand := c, prov := p } = .next { t with cand := c', prov := p' } ∧
      (t.status.cv = true → c' = t.cand ∧ p' = t.prov)

/-- 10 R13: the seven fields are all twenty bits of STATUS, each at its weight. That State holds the
fields and not the word is the model's choice (log entry 11). -/
def Obligations.StatusFieldsStandAtTheirWeights : Prop :=
  ∀ s : State,
    s.statusOut.getLsbD 0 = s.status.found ∧ s.statusOut.getLsbD 1 = s.status.nf ∧
    s.statusOut.getLsbD 2 = s.status.cv ∧ s.statusOut.getLsbD 3 = s.status.fault ∧
    s.statusOut.extractLsb' 4 4 = s.status.cause ∧ s.statusOut.extractLsb' 8 8 = s.status.idx ∧
    s.statusOut.extractLsb' 16 4 = s.status.cr ∧ Status.ofBits s.statusOut = s.status ∧
    ∀ w : BitVec 20, (Status.ofBits w).toBits = w

/-! ### Encoding -/

/-- Decode and encode agree: for every well-formed instruction, with every operand at every value. -/
def Obligations.DecodeOfEncodeIsTheInstruction : Prop :=
  ∀ i : Instr, i.wellFormed = true → decode (encode i) = .ok i

/-- Every legal word is the encoding of the well-formed instruction it decodes to, so no bit of it is
dropped and no instruction has two words. -/
def Obligations.EncodeOfDecodeIsTheWord : Prop :=
  ∀ (w : CmdWord) (i : Instr), decode w = .ok i → encode i = w ∧ i.wellFormed = true

/-- 30 R59: a word decodes to a command of a row exactly when it selects the row's match under the
row's mask and the row's extra condition holds. `j` names the row: any instruction of it. -/
def Obligations.DecodeAgreesWithTheOpcodeMap : Prop :=
  ∀ (w : CmdWord) (j : Instr),
    (∃ i, decode w = .ok i ∧ mnemonic i = mnemonic j) ↔
      (w &&& (opcodeRow j).mask = (opcodeRow j).pattern ∧
        (mnemonic j = "APPLY" → (cmdSlice w 0 4).toNat ≤ 5) ∧
        (mnemonic j = "KSF" → cmdSlice w 20 4 ≠ cmdSlice w 12 4))

/-- 30 R64: worked encodings decode to the commands they stand for and the illegal ones are refused by
name. -/
def Obligations.WorkedEncodingsDecode : Prop :=
  decode 0x01100000 = .ok (.ldi 1) ∧ decode 0x02000000 = .ok (.rdReg 0) ∧
  decode 0x02070000 = .ok (.rdReg 7) ∧ decode 0x20211000 = .ok (.ksf 2 1 1 0) ∧
  decode 0x03F00000 = .ok (.rds 15) ∧ decode 0x1010003F = .ok (.setbit 1 0 0 63) ∧
  decode 0x10100FC0 = .ok (.setbit 1 0 63 0) ∧ decode 0x11210002 = .ok (.apply 2 1 .pc1) ∧
  decode 0x12000001 = .ok (.perm 0 0 true) ∧ decode 0x2021100F = .ok (.ksf 2 1 1 15) ∧
  decode 0x30002000 = .ok (.frnd 0 0 2) ∧ decode 0x31000000 = .ok (.swap 0 0) ∧
  decode 0x40030000 = .ok (.ksr 3 0) ∧ decode 0x4140007F = .ok (.ldc 4 127) ∧
  decode 0x42500005 = .ok (.ldp 5 5) ∧ decode 0x50430500 = .ok (.ksrch 4 3 0 5 0) ∧
  decode 0x51610000 = .ok (.enc 6 1 0) ∧ decode 0x00000000 = .error .reservedOpcode ∧
  decode 0x11210006 = .error .reservedTable ∧ decode 0x20212000 = .error .ksfSameDestination ∧
  decode 0x01110000 = .error .mustBeZero

/-- 30 R63: the pseudo-instructions expand to the commands of the table and do what its notes say: CLR
zeroes, IPERM and FPERM permute, and MOV copies a register. They write only their destination. -/
def Obligations.PseudoInstructionsExpand : Prop :=
  ∀ (s : State) (rd rs1 : Reg), Running s →
    (expandPseudo (.clr rd) = [⟨encode (.ldi rd), 0⟩] ∧
      (expandPseudo (.iperm rd rs1)).map Transaction.cmd = [encode (.perm rd rs1 true)] ∧
      (expandPseudo (.fperm rd rs1)).map Transaction.cmd = [encode (.perm rd rs1 false)] ∧
      (expandPseudo (.mov rd rs1)).map Transaction.cmd =
        [encode (.apply rd rs1 .fp), encode (.apply rd rd .ip)]) ∧
    (∃ t, core.run 1 { s with pending := (expandPseudo (.clr rd)).map .transaction } = .next t ∧
      t.readX rd = 0 ∧ (∀ r, r ≠ rd → t.readX r = s.readX r) ∧ t.status = s.status) ∧
    (∃ t, core.run 1 { s with pending := (expandPseudo (.iperm rd rs1)).map .transaction } = .next t ∧
      t.readX rd = applyTable romIP (s.readX rs1) ∧
      (∀ r, r ≠ rd → t.readX r = s.readX r) ∧ t.status = s.status) ∧
    (∃ t, core.run 1 { s with pending := (expandPseudo (.fperm rd rs1)).map .transaction } = .next t ∧
      t.readX rd = applyTable romFP (s.readX rs1) ∧
      (∀ r, r ≠ rd → t.readX r = s.readX r) ∧ t.status = s.status) ∧
    (∃ t, core.run 2 { s with pending := (expandPseudo (.mov rd rs1)).map .transaction } = .next t ∧
      t.readX rd = s.readX rs1 ∧
      (∀ r, r ≠ rd → t.readX r = s.readX r) ∧ t.status = s.status)

/-! ### Host access -/

/-- 45 R120: LDI takes all 64 bits of `wdata` and changes nothing else. Of `pending` and `wdata`: log
entries 3 and 4, the model's choice. -/
def Obligations.LdiLoadsWdata : Prop :=
  ∀ (s : State) (rd : Reg), Running s →
    ∃ t, exec (.ldi rd) s = .next t ∧ t.readX rd = s.wdata ∧ OnlyRegs [rd] s t

/-- 45 R121: RD copies a register to RDATA, which `rdata` shows, and changes nothing else. Of
`pending` and `wdata`: log entries 3 and 4, the model's choice. -/
def Obligations.RdShowsTheRegister : Prop :=
  ∀ (s : State) (rs1 : Reg), Running s →
    ∃ t, exec (.rdReg rs1) s = .next t ∧ t.rdataOut = s.readX rs1 ∧ t.rdata = s.readX rs1 ∧
      (∀ r, t.readX r = s.readX r) ∧ t.status = s.status ∧ t.wdata = s.wdata ∧
      t.pending = s.pending ∧ (∀ k, Memory.read t.cand k = Memory.read s.cand k) ∧
      (∀ q, Memory.read t.prov q = Memory.read s.prov q)

/-- 45 R122, 10 R13: RDS copies STATUS zero-extended, each field at its weight; the value never shows
`FAULT = 1`, and reading clears nothing. Of `pending` and `wdata`: log entries 3 and 4, the model's
choice. -/
def Obligations.RdsCopiesStatus : Prop :=
  ∀ (s : State) (rd : Reg), Running s →
    ∃ t, exec (.rds rd) s = .next t ∧ OnlyRegs [rd] s t ∧
      (t.readX rd).getLsbD 0 = s.status.found ∧ (t.readX rd).getLsbD 1 = s.status.nf ∧
      (t.readX rd).getLsbD 2 = s.status.cv ∧ (t.readX rd).getLsbD 3 = false ∧
      (t.readX rd).extractLsb' 4 4 = s.status.cause ∧
      (t.readX rd).extractLsb' 8 8 = s.status.idx ∧
      (t.readX rd).extractLsb' 16 4 = s.status.cr ∧
      ∀ k, 20 ≤ k → (t.readX rd).getLsbD k = false

/-! ### Bit permutation -/

/-- 40 R70: SETBIT ORs the source position into the destination position, clears nothing and changes
no other position, also when source and destination are the same register. Of `pending` and `wdata`:
log entries 3 and 4, the model's choice. -/
def Obligations.SetbitOrsOnePosition : Prop :=
  ∀ (s : State) (rd rs1 : Reg) (src dst : Pos), Running s →
    ∃ t, exec (.setbit rd rs1 src dst) s = .next t ∧ OnlyRegs [rd] s t ∧
      bit (t.readX rd) dst.val = (bit (s.readX rd) dst.val || bit (s.readX rs1) src.val) ∧
      ∀ j, j ≠ dst.val → bit (t.readX rd) j = bit (s.readX rd) j

/-- 40 R71, R72: APPLY moves the source's positions by the selected table and writes the positions
from the table's length on as 0. Of `pending` and `wdata`: log entries 3 and 4, the model's choice. -/
def Obligations.ApplyMovesPositionsByTheTable : Prop :=
  ∀ (s : State) (rd rs1 : Reg) (tbl : TableSel), Running s →
    ∃ t, exec (.apply rd rs1 tbl) s = .next t ∧ OnlyRegs [rd] s t ∧
      (∀ (i : Nat) (h : i < (tableOf tbl).length),
        bit (t.readX rd) i = bit (s.readX rs1) ((tableOf tbl)[i] - 1)) ∧
      ∀ i, (tableOf tbl).length ≤ i → bit (t.readX rd) i = false

/-- 40 R73: PERM is IP for `ui = 1` and FP for `ui = 0`, the same command as APPLY with that table. Of
`pending` and `wdata`: log entries 3 and 4, the model's choice. -/
def Obligations.PermIsTheBlockPermutation : Prop :=
  ∀ (s : State) (rd rs1 : Reg) (ui : Bool), Running s →
    (∃ t, exec (.perm rd rs1 ui) s = .next t ∧ OnlyRegs [rd] s t ∧
      ∀ i, i < 64 → bit (t.readX rd) i =
        bit (s.readX rs1) ((if ui then romIP.getD i 0 else romFP.getD i 0) - 1)) ∧
    exec (.perm rd rs1 true) s = exec (.apply rd rs1 .ip) s ∧
    exec (.perm rd rs1 false) s = exec (.apply rd rs1 .fp) s

/-- 40 R74: IP and FP are mutual inverses; neither is idempotent. -/
def Obligations.IpAndFpAreMutualInverses : Prop :=
  (∀ v : Word, applyTable romIP (applyTable romFP v) = v ∧
    applyTable romFP (applyTable romIP v) = v) ∧
  (∃ v : Word, applyTable romIP (applyTable romIP v) ≠ applyTable romIP v) ∧
  (∃ v : Word, applyTable romFP (applyTable romFP v) ≠ applyTable romFP v)

/-- 40 R71: for every table of the ROM, `ApplyTable` moves position `T[i] - 1` to position `i`, clears
the positions from the table's length on, is linear over XOR and maps 0 to 0. -/
def Obligations.ApplyTableMovesPositionsAndIsLinear : Prop :=
  ∀ (tbl : TableSel) (a b : Word),
    (∀ (i : Nat) (h : i < (tableOf tbl).length),
      bit (applyTable (tableOf tbl) a) i = bit a ((tableOf tbl)[i] - 1)) ∧
    (∀ i, (tableOf tbl).length ≤ i → bit (applyTable (tableOf tbl) a) i = false) ∧
    applyTable (tableOf tbl) (a ^^^ b) = applyTable (tableOf tbl) a ^^^ applyTable (tableOf tbl) b ∧
    applyTable (tableOf tbl) 0 = 0

/-- 40 R75: from a zeroed register the SETBIT commands `T[i] - 1` to `i`, in any order, keep the
single-write contract and leave what APPLY computes. Of `pending` and `wdata`: log entries 3 and 4,
the model's choice. -/
def Obligations.SetbitsInAnyOrderRebuildApply : Prop :=
  ∀ (s : State) (rd rs1 : Reg) (tbl : TableSel) (is : List Instr), Running s → rd ≠ rs1 →
    s.readX rd = 0 →
    is.Perm ((List.range (tableOf tbl).length).map fun i =>
      .setbit rd rs1 (Fin.ofNat 64 ((tableOf tbl).getD i 0 - 1)) (Fin.ofNat 64 i)) →
    setbitContract [] is s = true ∧ ∃ t, execAll is s = .next t ∧ OnlyRegs [rd] s t ∧
      t.readX rd = applyTable (tableOf tbl) (s.readX rs1)

/-! ### Forward key schedule -/

/-- 41 R80, R81: KSF with distinct destinations reads its source, rotates both halves of the schedule
state by `ROT[rnd]` into `rd2` and selects the round key from the rotated state into `rd`. Of
`pending` and `wdata`: log entries 3 and 4, the model's choice. -/
def Obligations.KsfStepsTheSchedule : Prop :=
  ∀ (s : State) (rd rd2 rs1 : Reg) (rnd : RoundIx), Running s → rd ≠ rd2 →
    ∃ t, exec (.ksf rd rd2 rs1 rnd) s = .next t ∧ OnlyRegs [rd, rd2] s t ∧
      (∀ j, j < 28 →
        bit (t.readX rd2) j =
          bit (if rnd.val = 0 then applyTable romPC1 (s.readX rs1) else s.readX rs1)
            ((j + rotAmount rnd.val) % 28) ∧
        bit (t.readX rd2) (28 + j) =
          bit (if rnd.val = 0 then applyTable romPC1 (s.readX rs1) else s.readX rs1)
            (28 + (j + rotAmount rnd.val) % 28)) ∧
      (∀ j, 56 ≤ j → bit (t.readX rd2) j = false) ∧
      (∀ i, i < 48 → bit (t.readX rd) i = bit (t.readX rd2) (romPC2.getD i 0 - 1)) ∧
      ∀ i, 48 ≤ i → bit (t.readX rd) i = false

/-- 41 R81: KSF whose two destinations are one register is an illegal command and writes nothing. Of
`pending` and `wdata`: log entries 3 and 4, the model's choice. -/
def Obligations.KsfWithOneDestinationIsIllegal : Prop :=
  ∀ (s : State) (rd rs1 : Reg) (rnd : RoundIx), Running s →
    ∃ t, exec (.ksf rd rd rs1 rnd) s = .next t ∧ OnlyFault .illegalCommand s t

/-- 41 R80: the next state in numbers: `ns = (L' << 36) | (Rh' << 8)` with each 28-bit half rotated
left by `ROT[n]`. -/
def Obligations.KeyStepRotatesTheHalvesAsNumbers : Prop :=
  ∀ (n : RoundIx) (v : Word),
    (keyStep n.val v).2.toNat =
      (((field (stepState n.val v) 0 28 <<< rotAmount n.val) |||
          (field (stepState n.val v) 0 28 >>> (28 - rotAmount n.val))) &&& 0xFFFFFFF) <<< 36 |||
      (((field (stepState n.val v) 28 28 <<< rotAmount n.val) |||
          (field (stepState n.val v) 28 28 >>> (28 - rotAmount n.val))) &&& 0xFFFFFFF) <<< 8

/-- 41 R82: the sixteen subkeys are those of the schedule threaded from the master key, round by
round; because the rotations sum to 28, the state after round 15 is the state before any rotation. -/
def Obligations.SubkeysThreadTheScheduleState : Prop :=
  ∀ K : Word, (subkeys K).length = 16 ∧
    ∃ st : Nat → Word, st 0 = K ∧
      (∀ n, n < 16 → st (n + 1) = (keyStep n (st n)).2 ∧
        (subkeys K)[n]? = some (keyStep n (st n)).1) ∧
      st 16 = applyTable romPC1 K

/-- 43 R100: bit `i` of round key `R` is the master key's bit at position `RkSrc(R)[i]`; the positions
are distinct and none is a parity position. -/
def Obligations.RoundKeyBitsAreMasterKeyBits : Prop :=
  ∀ (K : Word) (R : RoundIx),
    (∀ i, i < 48 → bit (subkey K R.val) i = bit K ((rkSrc R.val).getD i 0)) ∧
    (rkSrc R.val).length = 48 ∧ (rkSrc R.val).Nodup ∧
    ∀ q ∈ rkSrc R.val, q < 64 ∧ q % 8 ≠ 7

/-- 10 R27: keys that differ only in parity positions have the same subkeys and encrypt alike. -/
def Obligations.ParityPositionsDoNotMatter : Prop :=
  ∀ (K K' : Word), (∀ q, q < 64 → q % 8 ≠ 7 → bit K q = bit K' q) →
    subkeys K = subkeys K' ∧ ∀ P, encrypt K P = encrypt K' P

/-! ### Feistel round -/

/-- 42 R92, R93: FRND's new left half is the old right half, its new right half is `F` XOR the old
left half. Of `pending` and `wdata`: log entries 3 and 4, the model's choice. -/
def Obligations.FrndIsOneFeistelRound : Prop :=
  ∀ (s : State) (rd rs1 rs2 : Reg), Running s →
    ∃ t, exec (.frnd rd rs1 rs2) s = .next t ∧ OnlyRegs [rd] s t ∧
      field (t.readX rd) 0 32 = field (s.readX rs1) 32 32 ∧
      field (t.readX rd) 32 32 =
        field (feistelF (s.readX rs1) (s.readX rs2)) 0 32 ^^^ field (s.readX rs1) 0 32

/-- 42 R90: each 6-bit group of the input gives one nibble, the S-box entry whose row is the group's
first and sixth bit and whose column is its middle four; the rest of the output is 0. -/
def Obligations.SubstituteLooksUpEachGroup : Prop :=
  ∀ w : Word,
    (∀ g, g < 8 → field (substitute w) (4 * g) 4 =
      sboxEntry g (2 * (field w (6 * g) 6 >>> 5) + field w (6 * g) 6 % 2)
        ((field w (6 * g) 6 >>> 1) % 16)) ∧
    ∀ i, 32 ≤ i → bit (substitute w) i = false

/-- 42 R91, R93: `F` depends on the right half of the block and on positions 0..47 of the key only,
and its result is a 32-bit value. -/
def Obligations.FeistelFunctionReadsItsOperandsOnly : Prop :=
  ∀ d d' k k' : Word, (∀ i, 32 ≤ i → i < 64 → bit d i = bit d' i) →
    (∀ i, i < 48 → bit k i = bit k' i) →
    feistelF d k = feistelF d' k' ∧ ∀ i, 32 ≤ i → bit (feistelF d k) i = false

/-- 42 R93: a round with a known key can be undone: both halves of the input are recovered. -/
def Obligations.RoundIsInvertible : Prop :=
  ∀ d k : Word,
    field d 32 32 = field (feistelRound d k) 0 32 ∧
    field d 0 32 = field (feistelRound d k) 32 32 ^^^
      field (feistelF (feistelRound d k >>> 32) k) 0 32

/-- 42 R94, R95: SWAP exchanges the halves of a block, and twice restores it. Of `pending` and
`wdata`: log entries 3 and 4, the model's choice. -/
def Obligations.SwapExchangesTheHalves : Prop :=
  (∀ (s : State) (rd rs1 : Reg), Running s →
    ∃ t, exec (.swap rd rs1) s = .next t ∧ OnlyRegs [rd] s t ∧
      ∀ i, i < 32 → bit (t.readX rd) i = bit (s.readX rs1) (i + 32) ∧
        bit (t.readX rd) (i + 32) = bit (s.readX rs1) i) ∧
  ∀ v : Word, swap32 (swap32 v) = v

/-! ### Reverse key schedule -/

/-- 43 R103: KSR fills PROV from the round alone and CAND with all 256 candidates of the register's
round key, sets CV and CR, clears FOUND, NF and IDX, and writes no register. That both memories are in
canonical form (`Memory.wf`) is the model's representation (log entry 8, DESIGN CHOICE), no rule's. Of
`pending` and `wdata`: log entries 3 and 4, the model's choice. -/
def Obligations.KsrStoresTheReverseSchedule : Prop :=
  ∀ (s : State) (rs1 : Reg) (rnd : RoundIx), Running s →
    ∃ t, exec (.ksr rs1 rnd) s = .next t ∧
      (∀ q, q < 64 → t.readProv q = slotByte (slotOf (rkSrc rnd.val) q)) ∧
      (∀ i, i < 256 →
        t.readCand i = candidate Config.parityComplement (s.readX rs1) rnd.val i) ∧
      Memory.wf 256 t.cand ∧ Memory.wf 64 t.prov ∧
      t.status.cv = true ∧ t.status.cr.toNat = rnd.val ∧ t.status.found = false ∧
      t.status.nf = false ∧ t.status.idx = 0 ∧ t.status.fault = false ∧
      t.status.cause = s.status.cause ∧ (∀ r, t.readX r = s.readX r) ∧ t.rdata = s.rdata ∧
      t.wdata = s.wdata ∧ t.pending = s.pending

/-- 43 R101: a slot `p` of the provenance map names the round-key position that carries that
master-key position, and an unresolved position feeds none; exactly eight are unresolved. -/
def Obligations.ProvenanceMapInvertsTheSchedule : Prop :=
  ∀ (R : RoundIx) (q : Pos),
    (q.val % 8 = 7 → slotOf (rkSrc R.val) q.val = .parity) ∧
    (∀ p, slotOf (rkSrc R.val) q.val = .determined p →
      p < 48 ∧ ∀ K : Word, bit (subkey K R.val) p = bit K q.val) ∧
    (slotOf (rkSrc R.val) q.val = .unresolved →
      ∀ (K : Word) (b : Bool), subkey (withBit K q.val b) R.val = subkey K R.val) ∧
    (unresolvedOf R.val).length = 8 ∧ provMap R.val = some (slotsOf (rkSrc R.val))

/-- 43 R104 item 1: the 256 candidates are pairwise distinct. -/
def Obligations.CandidatesAreDistinct : Prop :=
  ∀ (pc : Bool) (rk : Word) (R : RoundIx) (i j : CandIx),
    candidate pc rk R.val i.val = candidate pc rk R.val j.val → i = j

/-- 43 R104 item 2: the candidates increase with their index as unsigned numbers. -/
def Obligations.CandidatesAscend : Prop :=
  ∀ (pc : Bool) (rk : Word) (R : RoundIx) (i j : CandIx), i < j →
    (candidate pc rk R.val i.val).toNat < (candidate pc rk R.val j.val).toNat

/-- 43 R104 item 3: every candidate reproduces the round key it was computed from. -/
def Obligations.EveryCandidateReproducesTheRoundKey : Prop :=
  ∀ (pc : Bool) (rk : Word) (R : RoundIx) (i : CandIx),
    subkey (candidate pc rk R.val i.val) R.val = rk &&& 0xFFFFFFFFFFFF0000

/-- 43 R104 item 4: every key, with recomputed parity, is the candidate of the index its unresolved
bits form, for each of its round keys. -/
def Obligations.EveryKeyIsAmongItsCandidates : Prop :=
  ∀ (pc : Bool) (K : Word) (R : RoundIx),
    indexOfKey K R.val < 256 ∧
    candidate pc (subkey K R.val) R.val (indexOfKey K R.val) = withParity pc K

/-- 43 R102: the bits of every byte of every candidate XOR to `PARITY_COMPLEMENT`. -/
def Obligations.CandidateBytesHaveTheirParity : Prop :=
  ∀ (pc : Bool) (rk : Word) (R : RoundIx) (i : CandIx) (k : Nat), k < 8 →
    (List.range 8).foldl (fun b j => b ^^ bit (candidate pc rk R.val i.val) (8 * k + j)) false = pc

/-- 43 R105, R106: with `CV = 1`, LDC gives the stored word and LDP the stored slot zero-extended;
neither changes anything but its destination. What an element nothing has written reads as is a free
value (log entry 2, DESIGN CHOICE). Of `pending` and `wdata`: log entries 3 and 4, the model's
choice. -/
def Obligations.LdcAndLdpReadTheStoredElement : Prop :=
  ∀ (s : State) (rd : Reg), Running s → s.status.cv = true →
    (∀ idx : CandIx, ∃ t, exec (.ldc rd idx) s = .next t ∧ OnlyRegs [rd] s t ∧
      t.readX rd = s.readCand idx.val) ∧
    (∀ idx : Pos, ∃ t, exec (.ldp rd idx) s = .next t ∧ OnlyRegs [rd] s t ∧
      (t.readX rd).setWidth 8 = s.readProv idx.val ∧ (t.readX rd).toNat < 256)

/-- 43 R105, R106, 60 R133: with `CV = 0`, LDC and LDP record `CandInvalid` and nothing else. Of
`pending` and `wdata`: log entries 3 and 4, the model's choice. -/
def Obligations.LdcAndLdpBeforeAFillFault : Prop :=
  ∀ (s : State) (rd : Reg), Running s → s.status.cv = false →
    (∀ idx : CandIx, ∃ t, exec (.ldc rd idx) s = .next t ∧ OnlyFault .candInvalid s t) ∧
    (∀ idx : Pos, ∃ t, exec (.ldp rd idx) s = .next t ∧ OnlyFault .candInvalid s t)

/-- 43 R106, 10 R15: in a state that meets the invariant, LDP gives 0x00..0x2F, 0x80 or 0xC0, and 0xC0
exactly for the parity positions. -/
def Obligations.LdpGivesASlotValue : Prop :=
  ∀ (s : State) (rd : Reg) (idx : Pos), Inv s → Running s → s.status.cv = true →
    ∃ t, exec (.ldp rd idx) s = .next t ∧
      ((t.readX rd).toNat ≤ 0x2F ∨ t.readX rd = 0x80 ∨ t.readX rd = 0xC0) ∧
      (t.readX rd = 0xC0 ↔ idx.val % 8 = 7)

/-! ### Key recovery search -/

/-- 44 R110, R111: ENC encrypts one block, and the known-answer key and plaintext give the known
ciphertext. Of `pending` and `wdata`: log entries 3 and 4, the model's choice. -/
def Obligations.EncEncryptsOneBlock : Prop :=
  ∀ (s : State) (rd rs1 rs2 : Reg), Running s →
    ∃ t, exec (.enc rd rs1 rs2) s = .next t ∧ OnlyRegs [rd] s t ∧
      t.readX rd = encrypt (s.readX rs1) (s.readX rs2) ∧
      (s.readX rs1 = 0x133457799BBCDFF1 → s.readX rs2 = 0x0123456789ABCDEF →
        t.readX rd = 0x85E813540F0AB405)

/-- 44 R111 corner case c: PERM, sixteen times KSF and FRND, SWAP and PERM, on three distinct
registers, compute what ENC computes. Of `pending` and `wdata`: log entries 3 and 4, the model's
choice. -/
def Obligations.PrimitiveCommandsComputeEnc : Prop :=
  ∀ (s : State) (d k r : Reg), Running s → d ≠ k → d ≠ r → k ≠ r →
    ∃ t, execAll ([Instr.perm d d true] ++
        ((List.range 16).flatMap fun n => [.ksf r k k (Fin.ofNat 16 n), .frnd d d r]) ++
        [.swap d d, .perm d d false]) s = .next t ∧
      OnlyRegs [d, k, r] s t ∧ t.readX d = encrypt (s.readX k) (s.readX d) ∧
      ∃ u, exec (.enc d k d) s = .next u ∧ u.readX d = t.readX d

/-- 44 R112: KSRCH stores the reverse schedule of its round key, and either ends with the first
candidate that encrypts the plaintext to the ciphertext, its index and `FOUND`, or, when none does,
with 0 and `NF`. All three sources are read first. Of `pending` and `wdata`: log entries 3 and 4, the
model's choice. -/
def Obligations.KsrchFindsTheFirstMatch : Prop :=
  ∀ (s : State) (rd rs1 rs2 rs3 : Reg) (rnd : RoundIx), Running s →
    ∃ t, exec (.ksrch rd rs1 rs2 rs3 rnd) s = .next t ∧
      (∀ q, q < 64 → t.readProv q = slotByte (slotOf (rkSrc rnd.val) q)) ∧
      (∀ i, i < 256 →
        t.readCand i = candidate Config.parityComplement (s.readX rs1) rnd.val i) ∧
      t.status.cv = true ∧ t.status.cr.toNat = rnd.val ∧ t.status.fault = false ∧
      t.status.cause = s.status.cause ∧ (∀ r, r ≠ rd → t.readX r = s.readX r) ∧
      t.rdata = s.rdata ∧ t.wdata = s.wdata ∧ t.pending = s.pending ∧
      ((∃ i : CandIx,
          encrypt (candidate Config.parityComplement (s.readX rs1) rnd.val i.val) (s.readX rs2) =
            s.readX rs3 ∧
          (∀ j : CandIx, j < i →
            encrypt (candidate Config.parityComplement (s.readX rs1) rnd.val j.val)
              (s.readX rs2) ≠ s.readX rs3) ∧
          t.readX rd = candidate Config.parityComplement (s.readX rs1) rnd.val i.val ∧
          t.status.found = true ∧ t.status.nf = false ∧ t.status.idx.toNat = i.val) ∨
        ((∀ j : CandIx,
            encrypt (candidate Config.parityComplement (s.readX rs1) rnd.val j.val)
              (s.readX rs2) ≠ s.readX rs3) ∧
          t.readX rd = 0 ∧ t.status.found = false ∧ t.status.nf = true ∧ t.status.idx = 0))

/-- 44 R113: a genuine triple is recovered: when the sources hold round key `R` of `K` and a
plaintext with its ciphertext under `K`, KSRCH ends with `FOUND = 1`, a key that re-encrypts the
plaintext to the ciphertext, and an index at most that of `K`; the key is `K` on the data positions
when no earlier candidate matched. -/
def Obligations.GenuineTripleIsRecovered : Prop :=
  ∀ (s : State) (rd rs1 rs2 rs3 : Reg) (rnd : RoundIx) (K : Word), Running s →
    s.readX rs1 = subkey K rnd.val → s.readX rs3 = encrypt K (s.readX rs2) →
    ∃ t, exec (.ksrch rd rs1 rs2 rs3 rnd) s = .next t ∧
      t.status.found = true ∧ t.status.nf = false ∧
      encrypt (t.readX rd) (s.readX rs2) = s.readX rs3 ∧
      t.status.idx.toNat ≤ indexOfKey K rnd.val ∧
      (t.status.idx.toNat = indexOfKey K rnd.val →
        ∀ q, q < 64 → q % 8 ≠ 7 → bit (t.readX rd) q = bit K q)

/-- 44 R112 corner case b: KSRCH leaves CAND, PROV, CV and CR as KSR of the same round key and round
leaves them, and after a match LDC of IDX returns the recovered key again. Equal as data, by the
canonical form of the memories (log entry 8, DESIGN CHOICE). -/
def Obligations.KsrchLeavesWhatKsrLeaves : Prop :=
  ∀ (s : State) (rd rs1 rs2 rs3 rd' : Reg) (rnd : RoundIx), Running s →
    ∃ t u, exec (.ksrch rd rs1 rs2 rs3 rnd) s = .next t ∧ exec (.ksr rs1 rnd) s = .next u ∧
      t.cand = u.cand ∧ t.prov = u.prov ∧ t.status.cv = u.status.cv ∧ t.status.cr = u.status.cr ∧
      (t.status.found = true →
        ∃ v, exec (.ldc rd' t.status.idx.toFin) t = .next v ∧ v.readX rd' = t.readX rd)
end

