-- ==== Sys2Proof/Laws/Bits.lean ====
section
/-!
SUPPORT. Positions of a container (spec 00 R5): what each bit of each operation is, and the closed
forms of the loops `setBit`, `ApplyTable` (40 R71), the half rotation (41 R80) and `Swap32` (42 R94).
-/

namespace Sys2Proof.Machine

/-- Two containers with the same 64 positions are equal. -/
theorem word_ext {v w : Word} (h : ∀ i, i < 64 → bit v i = bit w i) : v = w := by
  apply BitVec.eq_of_getMsbD_eq
  intro i hi
  exact h i hi

theorem bit_of_ge (v : Word) {i : Nat} (h : 64 ≤ i) : bit v i = false := by
  simp [bit, BitVec.getMsbD, Nat.not_lt.2 h]

/-- `bit(v, i) = (v >> (63 - i)) & 1` (00 R5). -/
theorem bit_eq_shift (v : Word) {i : Nat} (h : i < 64) :
    bit v i = ((v >>> (63 - i)) &&& 1 == 1) := by
  have h1 : v >>> (63 - i) &&& 1 = (BitVec.ofBool (bit v i)).setWidth 64 := by
    apply BitVec.eq_of_getLsbD_eq
    intro j hj
    by_cases hj0 : j = 0
    · subst hj0
      simp [bit, BitVec.getMsbD, h]
    · simp [hj0]
  rw [h1]
  cases bit v i <;> decide

@[simp] theorem bit_zero (i : Nat) : bit 0#64 i = false := by simp [bit]

@[simp] theorem bit_or (v w : Word) (i : Nat) : bit (v ||| w) i = (bit v i || bit w i) := by
  simp [bit]

@[simp] theorem bit_and (v w : Word) (i : Nat) : bit (v &&& w) i = (bit v i && bit w i) := by
  simp [bit]

@[simp] theorem bit_xor (v w : Word) (i : Nat) : bit (v ^^^ w) i = (bit v i ^^ bit w i) := by
  simp [bit]

theorem bit_shiftLeft (v : Word) (n i : Nat) : bit (v <<< n) i = (decide (i < 64) && bit v (i + n)) := by
  by_cases h : i < 64
  · simp [bit, h]
  · rw [bit_of_ge _ (Nat.not_lt.1 h), decide_eq_false h, Bool.false_and]

theorem bit_shiftRight (v : Word) (n i : Nat) :
    bit (v >>> n) i = (decide (i < 64) && (!decide (i < n)) && bit v (i - n)) := by
  simp [bit, BitVec.getMsbD_ushiftRight, Bool.and_assoc]

theorem bit_bitWord (b : Bool) (i : Nat) : bit (bitWord b) i = (decide (i = 63) && b) := by
  cases b
  · simp [bitWord]
  · by_cases h : i < 64
    · have key : ∀ j : Fin 64, bit (1 : Word) j.val = decide (j.val = 63) := by decide
      simpa [bitWord] using key ⟨i, h⟩
    · have h63 : i ≠ 63 := by omega
      simp [bit_of_ge _ (Nat.not_lt.1 h), h63]

/-- The one-bit value `1 << (63 - i)` has position `i` set and no other. -/
theorem bit_oneAt (b : Bool) {i : Nat} (hi : i < 64) (j : Nat) :
    bit (bitWord b <<< (63 - i)) j = (decide (j = i) && b) := by
  rw [bit_shiftLeft, bit_bitWord]
  by_cases h : j = i
  · subst h
    simp [hi, show j + (63 - j) = 63 by omega]
  · have : ¬j + (63 - i) = 63 := by omega
    simp [h, this]

/-- `withbit` replaces one position and leaves every other (00 R5). -/
theorem bit_withBit (v : Word) {i : Nat} (hi : i < 64) (b : Bool) (j : Nat) :
    bit (withBit v i b) j = if j = i then b else bit v j := by
  have h1 : ((1 : Word) <<< (63 - i)) = bitWord true <<< (63 - i) := rfl
  have hnot : ∀ w : Word, bit (~~~w) j = (decide (j < 64) && !bit w j) := by
    intro w
    simp [bit]
  unfold withBit
  rw [h1, bit_or, bit_and, hnot, bit_oneAt true hi, bit_oneAt b hi]
  by_cases h : j = i
  · simp [h]
  · by_cases hj : j < 64
    · simp [h, hj]
    · simp [h, hj, bit_of_ge v (Nat.not_lt.1 hj)]

theorem setBit_eq (d s : Word) {src : Nat} (hs : src < 64) (dst : Nat) :
    setBit d s src dst = d ||| (bitWord (bit s src) <<< (63 - dst)) := by
  have h : (s >>> (63 - src)) &&& 1 = bitWord (bit s src) := by
    apply word_ext
    intro j hj
    have h1 : (1 : Word) = bitWord true := rfl
    rw [bit_and, h1, bit_bitWord, bit_shiftRight, bit_bitWord]
    by_cases h63 : j = 63
    · subst h63
      simp [show ¬63 < 63 - src by omega, show 63 - (63 - src) = src by omega]
    · simp [h63]
  unfold setBit
  rw [h]

/-- `setBit` ORs the source bit into one position (40 R70). -/
theorem bit_setBit (d s : Word) {src dst : Nat} (hs : src < 64) (hd : dst < 64) (j : Nat) :
    bit (setBit d s src dst) j = (bit d j || (decide (j = dst) && bit s src)) := by
  rw [setBit_eq d s hs, bit_or, bit_oneAt _ hd]

theorem bit_applyFrom (v : Word) (T : PermTable) (hT : ∀ t ∈ T, 1 ≤ t ∧ t ≤ 64) (a : Nat)
    (ha : a + T.length ≤ 64) (out : Word) (j : Nat) :
    bit (applyFrom v T a out) j =
      (bit out j || (decide (a ≤ j ∧ j < a + T.length) && bit v (T.getD (j - a) 0 - 1))) := by
  induction T generalizing a out with
  | nil => simp [applyFrom]
  | cons t T ih =>
    have ht := hT t (List.mem_cons_self ..)
    simp only [List.length_cons] at ha
    rw [applyFrom, ih (fun u hu => hT u (List.mem_cons_of_mem _ hu)) (a + 1) (by omega),
      bit_setBit _ _ (by omega) (by omega)]
    by_cases hj : j = a
    · subst hj
      simp [List.length_cons]
    · by_cases hr : a + 1 ≤ j ∧ j < a + 1 + T.length
      · have hr' : a ≤ j ∧ j < a + (T.length + 1) := by omega
        have hidx : j - a = (j - (a + 1)) + 1 := by omega
        simp [hj, hr, hr', hidx]
      · have hr' : ¬(a ≤ j ∧ j < a + (T.length + 1)) := by omega
        simp only [hj, hr, hr', List.length_cons, decide_false, Bool.false_and, Bool.or_false]

theorem PermTable.inRange_entries {T : PermTable} (h : T.inRange = true) :
    T.length ≤ 64 ∧ ∀ t ∈ T, 1 ≤ t ∧ t ≤ 64 := by
  simpa [PermTable.inRange] using h

/-- `ApplyTable` in closed form: output position `i` takes source position `T[i] - 1`, positions from
the table's length on are 0 (40 R71). -/
theorem bit_applyTable {T : PermTable} (hT : T.inRange = true) (v : Word) (i : Nat) :
    bit (applyTable T v) i = (decide (i < T.length) && bit v (T.getD i 0 - 1)) := by
  obtain ⟨hl, he⟩ := PermTable.inRange_entries hT
  rw [applyTable, bit_applyFrom v T he 0 (by omega)]
  simp

theorem romIP_inRange : PermTable.inRange romIP = true := by decide
theorem romFP_inRange : PermTable.inRange romFP = true := by decide
theorem romPC1_inRange : PermTable.inRange romPC1 = true := by decide
theorem romPC2_inRange : PermTable.inRange romPC2 = true := by decide
theorem romE_inRange : PermTable.inRange romE = true := by decide
theorem romP_inRange : PermTable.inRange romP = true := by decide

theorem tableOf_inRange (t : TableSel) : PermTable.inRange (tableOf t) = true := by
  cases t
  · exact romIP_inRange
  · exact romFP_inRange
  · exact romPC1_inRange
  · exact romPC2_inRange
  · exact romE_inRange
  · exact romP_inRange

theorem blockTableOf_inRange (ui : Bool) : PermTable.inRange (blockTableOf ui) = true := by
  cases ui
  · exact romFP_inRange
  · exact romIP_inRange

/-- The rotation loop up to half-position `n`: the positions written so far, 0 elsewhere. -/
theorem bit_rotateLoop (r : Nat) (st : Word) (n : Nat) (hn : n ≤ 28) (j : Nat) :
    bit ((List.range n).foldl (fun ns j =>
        withBit (withBit ns j (bit st ((j + r) % 28))) (28 + j) (bit st (28 + (j + r) % 28))) 0) j =
      if j < n then bit st ((j + r) % 28)
      else if 28 ≤ j ∧ j < 28 + n then bit st (28 + (j - 28 + r) % 28) else false := by
  induction n with
  | zero => simp [show ¬(28 ≤ j ∧ j < 28) by omega]
  | succ n ih =>
    rw [List.range_succ, List.foldl_append]
    simp only [List.foldl_cons, List.foldl_nil]
    rw [bit_withBit _ (by omega), bit_withBit _ (by omega), ih (by omega)]
    by_cases h1 : j = 28 + n
    · subst h1
      simp [show ¬28 + n < n + 1 by omega]
    · by_cases h2 : j = n
      · subst h2
        simp
      · rw [if_neg h1, if_neg h2]
        by_cases h3 : j < n
        · simp [h3, show j < n + 1 by omega]
        · rw [if_neg h3, if_neg (show ¬j < n + 1 by omega)]
          by_cases h4 : 28 ≤ j ∧ j < 28 + n
          · rw [if_pos h4, if_pos (by omega)]
          · rw [if_neg h4, if_neg (by omega)]

/-- The rotated halves position by position (41 R80). -/
theorem bit_rotateHalves (r : Nat) (st : Word) (j : Nat) :
    bit (rotateHalves r st) j =
      if j < 28 then bit st ((j + r) % 28)
      else if j < 56 then bit st (28 + (j - 28 + r) % 28) else false := by
  rw [rotateHalves, bit_rotateLoop r st 28 le_rfl]
  by_cases h : j < 28
  · simp [h]
  · rw [if_neg h, if_neg h]
    by_cases h2 : j < 56
    · rw [if_pos h2, if_pos (by omega)]
    · rw [if_neg h2, if_neg (by omega)]

/-- `Swap32` position by position (42 R94). -/
theorem bit_swap32 (v : Word) {i : Nat} (h : i < 64) :
    bit (swap32 v) i = if i < 32 then bit v (i + 32) else bit v (i - 32) := by
  rw [swap32, bit_or, bit_shiftLeft, bit_shiftRight]
  by_cases h32 : i < 32
  · simp [h, h32]
  · simp [h, h32, bit_of_ge v (show 64 ≤ i + 32 by omega)]

/-- `Round` position by position: the new left half is the old right half, the new right half `F` XOR
the old left half (42 R92). -/
theorem bit_feistelRound (d k : Word) {i : Nat} (h : i < 64) :
    bit (feistelRound d k) i =
      if i < 32 then bit d (i + 32) else (bit (feistelF d k) (i - 32) ^^ bit d (i - 32)) := by
  have mask : ∀ j : Fin 32, bit 0xFFFFFFFF00000000 j.val = true := by decide
  simp only [feistelRound, bit_or, bit_shiftLeft, bit_shiftRight, bit_xor, bit_and]
  by_cases h32 : i < 32
  · simp [h, h32]
  · rw [mask ⟨i - 32, by omega⟩]
    simp [h, h32, bit_of_ge d (show 64 ≤ i + 32 by omega)]

/-- The scan of 43 R102 never touches a position it has passed. -/
theorem bit_fillSlots_passed (pc : Bool) (rk : Word) (i : Nat) (ms : List Slot) (q n : Nat) (K : Word)
    (hq : q + ms.length ≤ 64) {j : Nat} (hj : j < q) :
    bit (fillSlots pc rk i ms q n K) j = bit K j := by
  induction ms generalizing q n K with
  | nil => rfl
  | cons m ms ih =>
    simp only [List.length_cons] at hq
    cases m
    all_goals
      rw [fillSlots, ih (q + 1) _ _ (by omega) (by omega), bit_withBit _ (by omega),
        if_neg (Nat.ne_of_lt hj)]

end Sys2Proof.Machine
end

