-- ==== Sys2Proof/Laws/Decode.lean ====
section
/-!
SUPPORT. What each field of a packed command word is (spec 30 R56, R57), for the three ways the formats
put a word together.
-/

namespace Sys2Proof

theorem getLsbD_atWeight {n : Nat} (lo : Nat) (f : BitVec n) (i : Nat) :
    (atWeight lo f).getLsbD i = (decide (lo ≤ i ∧ i < 32) && f.getLsbD (i - lo)) := by
  unfold atWeight
  by_cases h : i < 32
  · by_cases hl : lo ≤ i
    · simp [h, hl, Nat.not_lt.2 hl]
    · simp [h, hl, Nat.lt_of_not_le hl]
  · simp [h]

theorem getLsbD_cmdSlice (w : CmdWord) (lo len i : Nat) :
    (cmdSlice w lo len).getLsbD i = (decide (i < len) && w.getLsbD (lo + i)) := by
  simp [cmdSlice]

theorem cmdSlice_or (v w : CmdWord) (lo len : Nat) :
    cmdSlice (v ||| w) lo len = cmdSlice v lo len ||| cmdSlice w lo len := by
  apply BitVec.eq_of_getLsbD_eq
  intro i hi
  simp [getLsbD_cmdSlice, Bool.and_or_distrib_left]

/-- The slice at a field's own weight is the field. -/
theorem cmdSlice_atWeight_same {n : Nat} (f : BitVec n) {lo : Nat} (h : lo + n ≤ 32) :
    cmdSlice (atWeight lo f) lo n = f := by
  apply BitVec.eq_of_getLsbD_eq
  intro i hi
  simp only [getLsbD_cmdSlice, getLsbD_atWeight, Nat.add_sub_cancel_left]
  simp [hi, show lo + i < 32 by omega]

/-- A slice below a field's weight is zero. -/
theorem cmdSlice_atWeight_above {n : Nat} (f : BitVec n) {lo len lo' : Nat} (h : lo + len ≤ lo') :
    cmdSlice (atWeight lo' f) lo len = 0#len := by
  apply BitVec.eq_of_getLsbD_eq
  intro i hi
  simp only [getLsbD_cmdSlice, getLsbD_atWeight]
  simp [show ¬lo' ≤ lo + i by omega]

/-- A slice above a field is zero. -/
theorem cmdSlice_atWeight_below {n : Nat} (f : BitVec n) {lo len lo' : Nat} (h : lo' + n ≤ lo) :
    cmdSlice (atWeight lo' f) lo len = 0#len := by
  apply BitVec.eq_of_getLsbD_eq
  intro i hi
  simp only [getLsbD_cmdSlice, getLsbD_atWeight]
  simp [BitVec.getLsbD_of_ge f (lo + i - lo') (by omega)]

section fields
variable (op low : BitVec 8) (a b c d e f : BitVec 4) (src dst : BitVec 6)

@[simp] theorem opField_packFields : opField (packFields op a b c d e f) = op := by
  simp [opField, packFields, cmdSlice_or, cmdSlice_atWeight_same, cmdSlice_atWeight_below]

@[simp] theorem aField_packFields : aField (packFields op a b c d e f) = a := by
  simp [aField, packFields, cmdSlice_or, cmdSlice_atWeight_same, cmdSlice_atWeight_above, cmdSlice_atWeight_below]

@[simp] theorem bField_packFields : bField (packFields op a b c d e f) = b := by
  simp [bField, packFields, cmdSlice_or, cmdSlice_atWeight_same, cmdSlice_atWeight_above, cmdSlice_atWeight_below]

@[simp] theorem cField_packFields : cField (packFields op a b c d e f) = c := by
  simp [cField, packFields, cmdSlice_or, cmdSlice_atWeight_same, cmdSlice_atWeight_above, cmdSlice_atWeight_below]

@[simp] theorem dField_packFields : dField (packFields op a b c d e f) = d := by
  simp [dField, packFields, cmdSlice_or, cmdSlice_atWeight_same, cmdSlice_atWeight_above, cmdSlice_atWeight_below]

@[simp] theorem eField_packFields : eField (packFields op a b c d e f) = e := by
  simp [eField, packFields, cmdSlice_or, cmdSlice_atWeight_same, cmdSlice_atWeight_above, cmdSlice_atWeight_below]

@[simp] theorem fField_packFields : fField (packFields op a b c d e f) = f := by
  simp [fField, packFields, cmdSlice_or, cmdSlice_atWeight_same, cmdSlice_atWeight_above]

@[simp] theorem opField_packB : opField (packB op a b c src dst) = op := by
  simp [opField, packB, cmdSlice_or, cmdSlice_atWeight_same, cmdSlice_atWeight_below]

@[simp] theorem aField_packB : aField (packB op a b c src dst) = a := by
  simp [aField, packB, cmdSlice_or, cmdSlice_atWeight_same, cmdSlice_atWeight_above, cmdSlice_atWeight_below]

@[simp] theorem bField_packB : bField (packB op a b c src dst) = b := by
  simp [bField, packB, cmdSlice_or, cmdSlice_atWeight_same, cmdSlice_atWeight_above, cmdSlice_atWeight_below]

@[simp] theorem cField_packB : cField (packB op a b c src dst) = c := by
  simp [cField, packB, cmdSlice_or, cmdSlice_atWeight_same, cmdSlice_atWeight_above, cmdSlice_atWeight_below]

@[simp] theorem srcPosField_packB : srcPosField (packB op a b c src dst) = src := by
  simp [srcPosField, packB, cmdSlice_or, cmdSlice_atWeight_same, cmdSlice_atWeight_above, cmdSlice_atWeight_below]

@[simp] theorem low6Field_packB : low6Field (packB op a b c src dst) = dst := by
  simp [low6Field, packB, cmdSlice_or, cmdSlice_atWeight_same, cmdSlice_atWeight_above]

@[simp] theorem opField_packM : opField (packM op a b c d low) = op := by
  simp [opField, packM, cmdSlice_or, cmdSlice_atWeight_same, cmdSlice_atWeight_below]

@[simp] theorem aField_packM : aField (packM op a b c d low) = a := by
  simp [aField, packM, cmdSlice_or, cmdSlice_atWeight_same, cmdSlice_atWeight_above, cmdSlice_atWeight_below]

@[simp] theorem bField_packM : bField (packM op a b c d low) = b := by
  simp [bField, packM, cmdSlice_or, cmdSlice_atWeight_same, cmdSlice_atWeight_above, cmdSlice_atWeight_below]

@[simp] theorem cField_packM : cField (packM op a b c d low) = c := by
  simp [cField, packM, cmdSlice_or, cmdSlice_atWeight_same, cmdSlice_atWeight_above, cmdSlice_atWeight_below]

@[simp] theorem dField_packM : dField (packM op a b c d low) = d := by
  simp [dField, packM, cmdSlice_or, cmdSlice_atWeight_same, cmdSlice_atWeight_above, cmdSlice_atWeight_below]

@[simp] theorem idx8Field_packM : idx8Field (packM op a b c d low) = low := by
  simp [idx8Field, packM, cmdSlice_or, cmdSlice_atWeight_same, cmdSlice_atWeight_above]

end fields

/-! ### The narrow fields inside the wide ones, and a word put together from its own fields -/

theorem permZeroField_eq (w : CmdWord) : permZeroField w = (fField w).extractLsb' 1 3 := by
  apply BitVec.eq_of_getLsbD_eq
  intro i hi
  simp only [permZeroField, fField, BitVec.getLsbD_extractLsb', getLsbD_cmdSlice]
  simp [show 1 + i < 4 by omega]

theorem uiField_eq (w : CmdWord) : uiField w = (fField w).extractLsb' 0 1 := by
  apply BitVec.eq_of_getLsbD_eq
  intro i hi
  simp only [uiField, fField, BitVec.getLsbD_extractLsb', getLsbD_cmdSlice]
  simp [show i < 4 by omega]

theorem ldpZeroField_eq (w : CmdWord) : ldpZeroField w = (idx8Field w).extractLsb' 6 2 := by
  apply BitVec.eq_of_getLsbD_eq
  intro i hi
  simp only [ldpZeroField, idx8Field, BitVec.getLsbD_extractLsb', getLsbD_cmdSlice]
  simp [show 6 + i < 8 by omega]

theorem low6Field_eq (w : CmdWord) : low6Field w = (idx8Field w).extractLsb' 0 6 := by
  apply BitVec.eq_of_getLsbD_eq
  intro i hi
  simp only [low6Field, idx8Field, BitVec.getLsbD_extractLsb', getLsbD_cmdSlice]
  simp [show i < 8 by omega]

/-- Bit `i` of a field put back at its weight is bit `i` of the word, inside the field's range. -/
theorem getLsbD_atWeight_cmdSlice (w : CmdWord) (lo len i : Nat) (h : lo + len ≤ 32) :
    (atWeight lo (cmdSlice w lo len)).getLsbD i =
      (decide (lo ≤ i ∧ i < lo + len) && w.getLsbD i) := by
  rw [getLsbD_atWeight, getLsbD_cmdSlice]
  by_cases h1 : lo ≤ i
  · by_cases h2 : i < lo + len
    · simp [h1, h2, show i < 32 by omega, show i - lo < len by omega,
        show lo + (i - lo) = i by omega]
    · simp [h2, show ¬i - lo < len by omega]
  · simp [h1]

/-- A word is the six fields of 30 R56 put together. -/
theorem packFields_fields (w : CmdWord) :
    packFields (opField w) (aField w) (bField w) (cField w) (dField w) (eField w) (fField w) = w := by
  apply BitVec.eq_of_getLsbD_eq
  intro i hi
  simp only [packFields, opField, aField, bField, cField, dField, eField, fField,
    BitVec.getLsbD_or, getLsbD_atWeight_cmdSlice _ _ _ _ (by decide : 24 + 8 ≤ 32),
    getLsbD_atWeight_cmdSlice _ _ _ _ (by decide : 20 + 4 ≤ 32),
    getLsbD_atWeight_cmdSlice _ _ _ _ (by decide : 16 + 4 ≤ 32),
    getLsbD_atWeight_cmdSlice _ _ _ _ (by decide : 12 + 4 ≤ 32),
    getLsbD_atWeight_cmdSlice _ _ _ _ (by decide : 8 + 4 ≤ 32),
    getLsbD_atWeight_cmdSlice _ _ _ _ (by decide : 4 + 4 ≤ 32),
    getLsbD_atWeight_cmdSlice _ _ _ _ (by decide : 0 + 4 ≤ 32), ← Bool.and_or_distrib_right]
  rw [Bool.and_eq_right_iff_imp]
  intro _
  simp only [Bool.or_eq_true, decide_eq_true_eq]
  omega

/-- A word is the fields of format B put together (30 R57). -/
theorem packB_fields (w : CmdWord) :
    packB (opField w) (aField w) (bField w) (cField w) (srcPosField w) (low6Field w) = w := by
  apply BitVec.eq_of_getLsbD_eq
  intro i hi
  simp only [packB, opField, aField, bField, cField, srcPosField, low6Field,
    BitVec.getLsbD_or, getLsbD_atWeight_cmdSlice _ _ _ _ (by decide : 24 + 8 ≤ 32),
    getLsbD_atWeight_cmdSlice _ _ _ _ (by decide : 20 + 4 ≤ 32),
    getLsbD_atWeight_cmdSlice _ _ _ _ (by decide : 16 + 4 ≤ 32),
    getLsbD_atWeight_cmdSlice _ _ _ _ (by decide : 12 + 4 ≤ 32),
    getLsbD_atWeight_cmdSlice _ _ _ _ (by decide : 6 + 6 ≤ 32),
    getLsbD_atWeight_cmdSlice _ _ _ _ (by decide : 0 + 6 ≤ 32), ← Bool.and_or_distrib_right]
  rw [Bool.and_eq_right_iff_imp]
  intro _
  simp only [Bool.or_eq_true, decide_eq_true_eq]
  omega

/-- A word is the fields of format M put together (30 R57). -/
theorem packM_fields (w : CmdWord) :
    packM (opField w) (aField w) (bField w) (cField w) (dField w) (idx8Field w) = w := by
  apply BitVec.eq_of_getLsbD_eq
  intro i hi
  simp only [packM, opField, aField, bField, cField, dField, idx8Field,
    BitVec.getLsbD_or, getLsbD_atWeight_cmdSlice _ _ _ _ (by decide : 24 + 8 ≤ 32),
    getLsbD_atWeight_cmdSlice _ _ _ _ (by decide : 20 + 4 ≤ 32),
    getLsbD_atWeight_cmdSlice _ _ _ _ (by decide : 16 + 4 ≤ 32),
    getLsbD_atWeight_cmdSlice _ _ _ _ (by decide : 12 + 4 ≤ 32),
    getLsbD_atWeight_cmdSlice _ _ _ _ (by decide : 8 + 4 ≤ 32),
    getLsbD_atWeight_cmdSlice _ _ _ _ (by decide : 0 + 8 ≤ 32), ← Bool.and_or_distrib_right]
  rw [Bool.and_eq_right_iff_imp]
  intro _
  simp only [Bool.or_eq_true, decide_eq_true_eq]
  omega

end Sys2Proof
end

