-- ==== Sys2Proof/Laws/Memory.lean ====
section
/-!
SUPPORT. The memories (spec 20 R40 to R44): what reading gives after a bulk write, that the bulk write
and the single write keep the canonical form, and that the bulk write is the loop of single writes
43 R103 writes out.
-/

namespace Sys2Proof.Machine

variable {α : Type}

/-- `MemWrite` of one element (00 R7), keeping the list sorted. The block's commands never write one
element alone; it is here to read 43 R103's loop. -/
def Memory.write (k : Nat) (v : α) : Memory α → Memory α
  | [] => [(k, v)]
  | c :: m => if k < c.1 then (k, v) :: c :: m else if k = c.1 then (k, v) :: m
      else c :: Memory.write k v m

@[simp] theorem Memory.read_nil (k : Nat) : Memory.read ([] : Memory α) k = none := rfl

theorem Memory.read_cons (c : Nat × α) (m : Memory α) (k : Nat) :
    Memory.read (c :: m) k = if k = c.1 then some c.2 else Memory.read m k := by
  unfold Memory.read
  rw [List.lookup_cons]
  by_cases h : k = c.1
  · simp [h]
  · rw [beq_false_of_ne h, if_neg h]

theorem Memory.read_map_range' (f : Nat → α) (n a k : Nat) :
    Memory.read ((List.range' a n).map fun j => (j, f j)) k =
      if a ≤ k ∧ k < a + n then some (f k) else none := by
  induction n generalizing a with
  | zero =>
    have h : ¬(a ≤ k ∧ k < a + 0) := by omega
    simp only [List.range'_zero, List.map_nil, Memory.read_nil, if_neg h]
  | succ n ih =>
    rw [List.range'_succ, List.map_cons, Memory.read_cons, ih]
    by_cases hk : k = a
    · subst hk
      simp
    · simp only [hk, if_false]
      by_cases hr : a + 1 ≤ k ∧ k < a + 1 + n
      · rw [if_pos hr, if_pos (by omega)]
      · rw [if_neg hr, if_neg (by omega)]

/-- Reading after a bulk write: the element written, or nothing beyond the memory. -/
theorem Memory.read_fill (n : Nat) (f : Nat → α) (k : Nat) :
    Memory.read (Memory.fill n f) k = if k < n then some (f k) else none := by
  unfold Memory.fill
  rw [List.range_eq_range', Memory.read_map_range']
  simp

theorem Memory.fill_wf (n : Nat) (f : Nat → α) : Memory.wf n (Memory.fill n f) := by
  constructor
  · unfold Memory.fill
    rw [List.pairwise_map]
    exact List.pairwise_lt_range
  · intro c hc
    unfold Memory.fill at hc
    simp only [List.mem_map, List.mem_range] at hc
    obtain ⟨k, hk, rfl⟩ := hc
    exact hk

theorem Memory.nil_wf (n : Nat) : Memory.wf n ([] : Memory α) := ⟨List.Pairwise.nil, by simp⟩

/-- Reading after a single write. -/
theorem Memory.read_write {m : Memory α} (h : m.Pairwise fun c d => c.1 < d.1) (k j : Nat) (v : α) :
    Memory.read (Memory.write k v m) j = if j = k then some v else Memory.read m j := by
  induction m with
  | nil => simp [Memory.write, Memory.read_cons]
  | cons c m ih =>
    rw [List.pairwise_cons] at h
    unfold Memory.write
    split
    · rw [Memory.read_cons]
    · split
      · rename_i hk
        subst hk
        simp only [Memory.read_cons]
        by_cases hj : j = c.1 <;> simp [hj]
      · rename_i h1 h2
        simp only [Memory.read_cons, ih h.2]
        by_cases hj : j = c.1
        · simp [hj, show c.1 ≠ k by omega]
        · simp [hj]

theorem Memory.write_wf {n : Nat} {m : Memory α} (h : Memory.wf n m) {k : Nat} (hk : k < n) (v : α) :
    Memory.wf n (Memory.write k v m) := by
  obtain ⟨hp, hb⟩ := h
  induction m with
  | nil => exact ⟨by simp [Memory.write], by simpa [Memory.write] using hk⟩
  | cons c m ih =>
    rw [List.pairwise_cons] at hp
    have hb' : ∀ d ∈ m, d.1 < n := fun d hd => hb d (List.mem_cons_of_mem _ hd)
    have hc : c.1 < n := hb c (List.mem_cons_self ..)
    unfold Memory.write
    split
    · rename_i hlt
      refine ⟨List.pairwise_cons.2 ⟨?_, List.pairwise_cons.2 hp⟩, ?_⟩
      · intro d hd
        rcases List.mem_cons.1 hd with rfl | hd
        · exact hlt
        · exact lt_trans hlt (hp.1 d hd)
      · intro d hd
        rcases List.mem_cons.1 hd with rfl | hd
        · exact hk
        · exact hb d hd
    · split
      · rename_i heq
        refine ⟨List.pairwise_cons.2 ⟨fun d hd => ?_, hp.2⟩, ?_⟩
        · simpa [heq] using hp.1 d hd
        · intro d hd
          rcases List.mem_cons.1 hd with rfl | hd
          · exact hk
          · exact hb' d hd
      · rename_i h1 h2
        have hm := ih hp.2 hb'
        refine ⟨List.pairwise_cons.2 ⟨?_, hm.1⟩, ?_⟩
        · have key : ∀ (l : Memory α), (∀ d ∈ l, c.1 < d.1) →
              ∀ d ∈ Memory.write k v l, c.1 < d.1 := by
            intro l hl
            induction l with
            | nil => simpa [Memory.write] using (by omega : c.1 < k)
            | cons e l ihl =>
              have he : c.1 < e.1 := hl e (List.mem_cons_self ..)
              have hl' : ∀ d ∈ l, c.1 < d.1 := fun d hd => hl d (List.mem_cons_of_mem _ hd)
              intro d hd
              unfold Memory.write at hd
              split at hd
              · rcases List.mem_cons.1 hd with rfl | hd
                · show c.1 < k
                  omega
                · exact hl d hd
              · split at hd
                · rcases List.mem_cons.1 hd with rfl | hd
                  · show c.1 < k
                    omega
                  · exact hl' d hd
                · rcases List.mem_cons.1 hd with rfl | hd
                  · exact he
                  · exact ihl hl' d hd
          exact key m hp.1
        · intro d hd
          rcases List.mem_cons.1 hd with rfl | hd
          · exact hc
          · exact hm.2 d hd

/-- Two memories in canonical form that read alike are equal data. -/
theorem Memory.eq_of_read {m m' : Memory α} (h : m.Pairwise fun c d => c.1 < d.1)
    (h' : m'.Pairwise fun c d => c.1 < d.1) (hr : ∀ k, Memory.read m k = Memory.read m' k) :
    m = m' := by
  have none_below : ∀ (l : Memory α) (a : Nat), (∀ d ∈ l, a < d.1) → Memory.read l a = none := by
    intro l a hl
    induction l with
    | nil => rfl
    | cons c l ih =>
      rw [Memory.read_cons, if_neg (Nat.ne_of_lt (hl c (List.mem_cons_self ..)))]
      exact ih fun d hd => hl d (List.mem_cons_of_mem _ hd)
  induction m generalizing m' with
  | nil =>
    cases m' with
    | nil => rfl
    | cons c m' => simpa [Memory.read_cons] using hr c.1
  | cons c m ih =>
    rw [List.pairwise_cons] at h
    cases m' with
    | nil => simpa [Memory.read_cons] using hr c.1
    | cons d m' =>
      rw [List.pairwise_cons] at h'
      have hcd : c.1 = d.1 := by
        rcases Nat.lt_trichotomy c.1 d.1 with hlt | heq | hgt
        · have := hr c.1
          rw [none_below (d :: m') c.1 (by
            intro e he
            rcases List.mem_cons.1 he with rfl | he
            · exact hlt
            · exact lt_trans hlt (h'.1 e he))] at this
          simp [Memory.read_cons] at this
        · exact heq
        · have := hr d.1
          rw [none_below (c :: m) d.1 (by
            intro e he
            rcases List.mem_cons.1 he with rfl | he
            · exact hgt
            · exact lt_trans hgt (h.1 e he))] at this
          simp [Memory.read_cons] at this
      have hval : c.2 = d.2 := by
        have := hr c.1
        simpa [Memory.read_cons, hcd] using this
      obtain rfl : c = d := Prod.ext hcd hval
      have : m = m' := ih h.2 h'.2 fun k => by
        by_cases hk : k = c.1
        · subst hk
          rw [none_below m _ h.1, none_below m' _ h'.1]
        · have := hr k
          simpa [Memory.read_cons, hk] using this
      rw [this]

/-- The bulk write is the loop `for k in 0 .. n-1: MemWrite(k, f k)` of 43 R103, from any memory in
canonical form. -/
theorem Memory.fill_eq_writes {n : Nat} {m : Memory α} (h : Memory.wf n m) (f : Nat → α) :
    (List.range n).foldl (fun m k => Memory.write k (f k) m) m = Memory.fill n f := by
  have loop : ∀ (j : Nat), j ≤ n →
      Memory.wf n ((List.range j).foldl (fun m k => Memory.write k (f k) m) m) ∧
      ∀ k, Memory.read ((List.range j).foldl (fun m k => Memory.write k (f k) m) m) k =
        if k < j then some (f k) else Memory.read m k := by
    intro j
    induction j with
    | zero => exact fun _ => ⟨by simpa using h, by simp⟩
    | succ j ih =>
      intro hj
      obtain ⟨hw, hr⟩ := ih (by omega)
      rw [List.range_succ, List.foldl_append]
      refine ⟨Memory.write_wf hw (by omega) _, fun k => ?_⟩
      simp only [List.foldl_cons, List.foldl_nil, Memory.read_write hw.1, hr]
      by_cases hk : k = j
      · subst hk
        simp
      · by_cases hlt : k < j
        · simp [hk, hlt, show k < j + 1 by omega]
        · simp [hk, hlt, show ¬k < j + 1 by omega]
  have none_above : ∀ k, ¬k < n → Memory.read m k = none := by
    intro k hk
    have hb := h.2
    clear loop h
    induction m with
    | nil => rfl
    | cons c m ih =>
      have : c.1 < n := hb c (List.mem_cons_self ..)
      rw [Memory.read_cons, if_neg (by omega)]
      exact ih fun d hd => hb d (List.mem_cons_of_mem _ hd)
  obtain ⟨hw, hr⟩ := loop n le_rfl
  refine Memory.eq_of_read hw.1 (Memory.fill_wf n f).1 fun k => ?_
  rw [hr, Memory.read_fill]
  by_cases hk : k < n
  · simp [hk]
  · simp [hk, none_above k hk]

/-! ### CAND and PROV -/

theorem State.readCand_fillCand (s : State) (f : Nat → Word) {k : Nat} (h : k < 256) :
    (s.fillCand f).readCand k = f k := by
  simp [State.readCand, State.fillCand, Memory.read_fill, h]

theorem State.readProv_fillProv (s : State) (f : Nat → Byte) {q : Nat} (h : q < 64) :
    (s.fillProv f).readProv q = f q := by
  simp [State.readProv, State.fillProv, Memory.read_fill, h]

/-- The memories of the reset state are in canonical form. -/
theorem State.reset_memories_wf :
    Memory.wf 256 State.reset.cand ∧ Memory.wf 64 State.reset.prov :=
  ⟨Memory.nil_wf 256, Memory.nil_wf 64⟩

end Sys2Proof.Machine
end

