-- ==== Sys2Proof/Laws/State.lean ====
section
/-!
SUPPORT. Every field of every update of the state and of STATUS, true by `rfl`, and what reading a
register, an element or an output gives after each update.
-/

namespace Sys2Proof.Machine

/-! ### `State.writeX` -/

@[simp] theorem State.writeX_x (s : State) (r : Reg) (v : Word) :
    (s.writeX r v).x = s.x.set r.val v r.isLt := rfl
@[simp] theorem State.writeX_status (s : State) (r : Reg) (v : Word) :
    (s.writeX r v).status = s.status := rfl
@[simp] theorem State.writeX_cand (s : State) (r : Reg) (v : Word) :
    (s.writeX r v).cand = s.cand := rfl
@[simp] theorem State.writeX_prov (s : State) (r : Reg) (v : Word) :
    (s.writeX r v).prov = s.prov := rfl
@[simp] theorem State.writeX_rdata (s : State) (r : Reg) (v : Word) :
    (s.writeX r v).rdata = s.rdata := rfl
@[simp] theorem State.writeX_wdata (s : State) (r : Reg) (v : Word) :
    (s.writeX r v).wdata = s.wdata := rfl
@[simp] theorem State.writeX_pending (s : State) (r : Reg) (v : Word) :
    (s.writeX r v).pending = s.pending := rfl

/-! ### `State.fillCand` -/

@[simp] theorem State.fillCand_x (s : State) (f : Nat → Word) :
    (s.fillCand f).x = s.x := rfl
@[simp] theorem State.fillCand_status (s : State) (f : Nat → Word) :
    (s.fillCand f).status = s.status := rfl
@[simp] theorem State.fillCand_cand (s : State) (f : Nat → Word) :
    (s.fillCand f).cand = Memory.fill 256 f := rfl
@[simp] theorem State.fillCand_prov (s : State) (f : Nat → Word) :
    (s.fillCand f).prov = s.prov := rfl
@[simp] theorem State.fillCand_rdata (s : State) (f : Nat → Word) :
    (s.fillCand f).rdata = s.rdata := rfl
@[simp] theorem State.fillCand_wdata (s : State) (f : Nat → Word) :
    (s.fillCand f).wdata = s.wdata := rfl
@[simp] theorem State.fillCand_pending (s : State) (f : Nat → Word) :
    (s.fillCand f).pending = s.pending := rfl

/-! ### `State.fillProv` -/

@[simp] theorem State.fillProv_x (s : State) (f : Nat → Byte) :
    (s.fillProv f).x = s.x := rfl
@[simp] theorem State.fillProv_status (s : State) (f : Nat → Byte) :
    (s.fillProv f).status = s.status := rfl
@[simp] theorem State.fillProv_cand (s : State) (f : Nat → Byte) :
    (s.fillProv f).cand = s.cand := rfl
@[simp] theorem State.fillProv_prov (s : State) (f : Nat → Byte) :
    (s.fillProv f).prov = Memory.fill 64 f := rfl
@[simp] theorem State.fillProv_rdata (s : State) (f : Nat → Byte) :
    (s.fillProv f).rdata = s.rdata := rfl
@[simp] theorem State.fillProv_wdata (s : State) (f : Nat → Byte) :
    (s.fillProv f).wdata = s.wdata := rfl
@[simp] theorem State.fillProv_pending (s : State) (f : Nat → Byte) :
    (s.fillProv f).pending = s.pending := rfl

/-! ### `State.setStatus` -/

@[simp] theorem State.setStatus_x (s : State) (st : Status) :
    (s.setStatus st).x = s.x := rfl
@[simp] theorem State.setStatus_status (s : State) (st : Status) :
    (s.setStatus st).status = st := rfl
@[simp] theorem State.setStatus_cand (s : State) (st : Status) :
    (s.setStatus st).cand = s.cand := rfl
@[simp] theorem State.setStatus_prov (s : State) (st : Status) :
    (s.setStatus st).prov = s.prov := rfl
@[simp] theorem State.setStatus_rdata (s : State) (st : Status) :
    (s.setStatus st).rdata = s.rdata := rfl
@[simp] theorem State.setStatus_wdata (s : State) (st : Status) :
    (s.setStatus st).wdata = s.wdata := rfl
@[simp] theorem State.setStatus_pending (s : State) (st : Status) :
    (s.setStatus st).pending = s.pending := rfl

/-! ### `State.setRdata` -/

@[simp] theorem State.setRdata_x (s : State) (v : Word) :
    (s.setRdata v).x = s.x := rfl
@[simp] theorem State.setRdata_status (s : State) (v : Word) :
    (s.setRdata v).status = s.status := rfl
@[simp] theorem State.setRdata_cand (s : State) (v : Word) :
    (s.setRdata v).cand = s.cand := rfl
@[simp] theorem State.setRdata_prov (s : State) (v : Word) :
    (s.setRdata v).prov = s.prov := rfl
@[simp] theorem State.setRdata_rdata (s : State) (v : Word) :
    (s.setRdata v).rdata = v := rfl
@[simp] theorem State.setRdata_wdata (s : State) (v : Word) :
    (s.setRdata v).wdata = s.wdata := rfl
@[simp] theorem State.setRdata_pending (s : State) (v : Word) :
    (s.setRdata v).pending = s.pending := rfl

/-! ### `State.raise` -/

@[simp] theorem State.raise_x (s : State) (c : Cause) :
    (s.raise c).x = s.x := rfl
@[simp] theorem State.raise_status (s : State) (c : Cause) :
    (s.raise c).status = s.status.afterFault c := rfl
@[simp] theorem State.raise_cand (s : State) (c : Cause) :
    (s.raise c).cand = s.cand := rfl
@[simp] theorem State.raise_prov (s : State) (c : Cause) :
    (s.raise c).prov = s.prov := rfl
@[simp] theorem State.raise_rdata (s : State) (c : Cause) :
    (s.raise c).rdata = s.rdata := rfl
@[simp] theorem State.raise_wdata (s : State) (c : Cause) :
    (s.raise c).wdata = s.wdata := rfl
@[simp] theorem State.raise_pending (s : State) (c : Cause) :
    (s.raise c).pending = s.pending := rfl

/-! ### `State.assertReset` -/

@[simp] theorem State.assertReset_x (s : State) :
    (s.assertReset).x = Vector.replicate 16 0 := rfl
@[simp] theorem State.assertReset_status (s : State) :
    (s.assertReset).status = Status.reset := rfl
@[simp] theorem State.assertReset_cand (s : State) :
    (s.assertReset).cand = [] := rfl
@[simp] theorem State.assertReset_prov (s : State) :
    (s.assertReset).prov = [] := rfl
@[simp] theorem State.assertReset_rdata (s : State) :
    (s.assertReset).rdata = 0 := rfl
@[simp] theorem State.assertReset_wdata (s : State) :
    (s.assertReset).wdata = s.wdata := rfl
@[simp] theorem State.assertReset_pending (s : State) :
    (s.assertReset).pending = s.pending := rfl

/-! ### `State.present` -/

@[simp] theorem State.present_x (s : State) (v : Word) (rest : List HostMove) :
    (s.present v rest).x = s.x := rfl
@[simp] theorem State.present_status (s : State) (v : Word) (rest : List HostMove) :
    (s.present v rest).status = s.status := rfl
@[simp] theorem State.present_cand (s : State) (v : Word) (rest : List HostMove) :
    (s.present v rest).cand = s.cand := rfl
@[simp] theorem State.present_prov (s : State) (v : Word) (rest : List HostMove) :
    (s.present v rest).prov = s.prov := rfl
@[simp] theorem State.present_rdata (s : State) (v : Word) (rest : List HostMove) :
    (s.present v rest).rdata = s.rdata := rfl
@[simp] theorem State.present_wdata (s : State) (v : Word) (rest : List HostMove) :
    (s.present v rest).wdata = v := rfl
@[simp] theorem State.present_pending (s : State) (v : Word) (rest : List HostMove) :
    (s.present v rest).pending = rest := rfl

/-! ### `State.withNextCommand` -/

@[simp] theorem State.withNextCommand_x (s : State) (w : CmdWord) :
    (s.withNextCommand w).x = s.x := rfl
@[simp] theorem State.withNextCommand_status (s : State) (w : CmdWord) :
    (s.withNextCommand w).status = s.status := rfl
@[simp] theorem State.withNextCommand_cand (s : State) (w : CmdWord) :
    (s.withNextCommand w).cand = s.cand := rfl
@[simp] theorem State.withNextCommand_prov (s : State) (w : CmdWord) :
    (s.withNextCommand w).prov = s.prov := rfl
@[simp] theorem State.withNextCommand_rdata (s : State) (w : CmdWord) :
    (s.withNextCommand w).rdata = s.rdata := rfl
@[simp] theorem State.withNextCommand_wdata (s : State) (w : CmdWord) :
    (s.withNextCommand w).wdata = s.wdata := rfl
@[simp] theorem State.withNextCommand_pending (s : State) (w : CmdWord) :
    (s.withNextCommand w).pending = .transaction ⟨w, s.wdata⟩ :: s.pending := rfl

/-! ### `Status.afterFault` -/

@[simp] theorem Status.afterFault_found (st : Status) (c : Cause) :
    (st.afterFault c).found = st.found := rfl
@[simp] theorem Status.afterFault_nf (st : Status) (c : Cause) :
    (st.afterFault c).nf = st.nf := rfl
@[simp] theorem Status.afterFault_cv (st : Status) (c : Cause) :
    (st.afterFault c).cv = st.cv := rfl
@[simp] theorem Status.afterFault_fault (st : Status) (c : Cause) :
    (st.afterFault c).fault = true := rfl
@[simp] theorem Status.afterFault_cause (st : Status) (c : Cause) :
    (st.afterFault c).cause = causeCode c := rfl
@[simp] theorem Status.afterFault_idx (st : Status) (c : Cause) :
    (st.afterFault c).idx = st.idx := rfl
@[simp] theorem Status.afterFault_cr (st : Status) (c : Cause) :
    (st.afterFault c).cr = st.cr := rfl

/-! ### `Status.afterFill` -/

@[simp] theorem Status.afterFill_found (st : Status) (rnd : RoundIx) :
    (st.afterFill rnd).found = st.found := rfl
@[simp] theorem Status.afterFill_nf (st : Status) (rnd : RoundIx) :
    (st.afterFill rnd).nf = st.nf := rfl
@[simp] theorem Status.afterFill_cv (st : Status) (rnd : RoundIx) :
    (st.afterFill rnd).cv = true := rfl
@[simp] theorem Status.afterFill_fault (st : Status) (rnd : RoundIx) :
    (st.afterFill rnd).fault = st.fault := rfl
@[simp] theorem Status.afterFill_cause (st : Status) (rnd : RoundIx) :
    (st.afterFill rnd).cause = st.cause := rfl
@[simp] theorem Status.afterFill_idx (st : Status) (rnd : RoundIx) :
    (st.afterFill rnd).idx = st.idx := rfl
@[simp] theorem Status.afterFill_cr (st : Status) (rnd : RoundIx) :
    (st.afterFill rnd).cr = BitVec.ofFin rnd := rfl

/-! ### `Status.afterKsr` -/

@[simp] theorem Status.afterKsr_found (st : Status) :
    (st.afterKsr).found = false := rfl
@[simp] theorem Status.afterKsr_nf (st : Status) :
    (st.afterKsr).nf = false := rfl
@[simp] theorem Status.afterKsr_cv (st : Status) :
    (st.afterKsr).cv = st.cv := rfl
@[simp] theorem Status.afterKsr_fault (st : Status) :
    (st.afterKsr).fault = st.fault := rfl
@[simp] theorem Status.afterKsr_cause (st : Status) :
    (st.afterKsr).cause = st.cause := rfl
@[simp] theorem Status.afterKsr_idx (st : Status) :
    (st.afterKsr).idx = 0 := rfl
@[simp] theorem Status.afterKsr_cr (st : Status) :
    (st.afterKsr).cr = st.cr := rfl

/-! ### `Status.afterMatch` -/

@[simp] theorem Status.afterMatch_found (st : Status) (i : Nat) :
    (st.afterMatch i).found = true := rfl
@[simp] theorem Status.afterMatch_nf (st : Status) (i : Nat) :
    (st.afterMatch i).nf = false := rfl
@[simp] theorem Status.afterMatch_cv (st : Status) (i : Nat) :
    (st.afterMatch i).cv = st.cv := rfl
@[simp] theorem Status.afterMatch_fault (st : Status) (i : Nat) :
    (st.afterMatch i).fault = st.fault := rfl
@[simp] theorem Status.afterMatch_cause (st : Status) (i : Nat) :
    (st.afterMatch i).cause = st.cause := rfl
@[simp] theorem Status.afterMatch_idx (st : Status) (i : Nat) :
    (st.afterMatch i).idx = BitVec.ofNat 8 i := rfl
@[simp] theorem Status.afterMatch_cr (st : Status) (i : Nat) :
    (st.afterMatch i).cr = st.cr := rfl

/-! ### `Status.afterExhaustion` -/

@[simp] theorem Status.afterExhaustion_found (st : Status) :
    (st.afterExhaustion).found = false := rfl
@[simp] theorem Status.afterExhaustion_nf (st : Status) :
    (st.afterExhaustion).nf = true := rfl
@[simp] theorem Status.afterExhaustion_cv (st : Status) :
    (st.afterExhaustion).cv = st.cv := rfl
@[simp] theorem Status.afterExhaustion_fault (st : Status) :
    (st.afterExhaustion).fault = st.fault := rfl
@[simp] theorem Status.afterExhaustion_cause (st : Status) :
    (st.afterExhaustion).cause = st.cause := rfl
@[simp] theorem Status.afterExhaustion_idx (st : Status) :
    (st.afterExhaustion).idx = 0 := rfl
@[simp] theorem Status.afterExhaustion_cr (st : Status) :
    (st.afterExhaustion).cr = st.cr := rfl

/-! ### Registers -/

@[simp] theorem State.readX_writeX_same (s : State) (r : Reg) (v : Word) :
    (s.writeX r v).readX r = v := by
  simp [State.readX, Vector.get_eq_getElem]

theorem State.readX_writeX_other (s : State) {r q : Reg} (v : Word) (h : q ≠ r) :
    (s.writeX r v).readX q = s.readX q := by
  have h' : r.val ≠ q.val := fun e => h (Fin.ext e.symm)
  simp [State.readX, Vector.get_eq_getElem, h']

theorem State.readX_writeX (s : State) (r q : Reg) (v : Word) :
    (s.writeX r v).readX q = if q = r then v else s.readX q := by
  by_cases h : q = r
  · subst h
    simp
  · simp [h, State.readX_writeX_other s v h]

/-- Reading a register depends on the register file alone. -/
theorem State.readX_congr {s t : State} (h : t.x = s.x) (r : Reg) : t.readX r = s.readX r := by
  simp [State.readX, h]

@[simp] theorem State.readX_fillCand (s : State) (f : Nat → Word) (r : Reg) :
    (s.fillCand f).readX r = s.readX r := rfl
@[simp] theorem State.readX_fillProv (s : State) (f : Nat → Byte) (r : Reg) :
    (s.fillProv f).readX r = s.readX r := rfl
@[simp] theorem State.readX_setStatus (s : State) (st : Status) (r : Reg) :
    (s.setStatus st).readX r = s.readX r := rfl
@[simp] theorem State.readX_setRdata (s : State) (v : Word) (r : Reg) :
    (s.setRdata v).readX r = s.readX r := rfl
@[simp] theorem State.readX_raise (s : State) (c : Cause) (r : Reg) :
    (s.raise c).readX r = s.readX r := rfl
@[simp] theorem State.readX_present (s : State) (v : Word) (rest : List HostMove) (r : Reg) :
    (s.present v rest).readX r = s.readX r := rfl
@[simp] theorem State.readX_withNextCommand (s : State) (w : CmdWord) (r : Reg) :
    (s.withNextCommand w).readX r = s.readX r := rfl

@[simp] theorem State.readX_assertReset (s : State) (r : Reg) : s.assertReset.readX r = 0 := by
  simp [State.readX, Vector.get_eq_getElem]

/-! ### Elements and outputs -/

@[simp] theorem State.readCand_writeX (s : State) (r : Reg) (v : Word) (k : Nat) :
    (s.writeX r v).readCand k = s.readCand k := rfl
@[simp] theorem State.readCand_fillProv (s : State) (f : Nat → Byte) (k : Nat) :
    (s.fillProv f).readCand k = s.readCand k := rfl
@[simp] theorem State.readCand_setStatus (s : State) (st : Status) (k : Nat) :
    (s.setStatus st).readCand k = s.readCand k := rfl
@[simp] theorem State.readCand_setRdata (s : State) (v : Word) (k : Nat) :
    (s.setRdata v).readCand k = s.readCand k := rfl
@[simp] theorem State.readCand_raise (s : State) (c : Cause) (k : Nat) :
    (s.raise c).readCand k = s.readCand k := rfl
@[simp] theorem State.readCand_present (s : State) (v : Word) (rest : List HostMove) (k : Nat) :
    (s.present v rest).readCand k = s.readCand k := rfl
@[simp] theorem State.readCand_withNextCommand (s : State) (w : CmdWord) (k : Nat) :
    (s.withNextCommand w).readCand k = s.readCand k := rfl
@[simp] theorem State.readProv_writeX (s : State) (r : Reg) (v : Word) (k : Nat) :
    (s.writeX r v).readProv k = s.readProv k := rfl
@[simp] theorem State.readProv_fillCand (s : State) (f : Nat → Word) (k : Nat) :
    (s.fillCand f).readProv k = s.readProv k := rfl
@[simp] theorem State.readProv_setStatus (s : State) (st : Status) (k : Nat) :
    (s.setStatus st).readProv k = s.readProv k := rfl
@[simp] theorem State.readProv_setRdata (s : State) (v : Word) (k : Nat) :
    (s.setRdata v).readProv k = s.readProv k := rfl
@[simp] theorem State.readProv_raise (s : State) (c : Cause) (k : Nat) :
    (s.raise c).readProv k = s.readProv k := rfl
@[simp] theorem State.readProv_present (s : State) (v : Word) (rest : List HostMove) (k : Nat) :
    (s.present v rest).readProv k = s.readProv k := rfl
@[simp] theorem State.readProv_withNextCommand (s : State) (w : CmdWord) (k : Nat) :
    (s.withNextCommand w).readProv k = s.readProv k := rfl

theorem State.statusOut_eq (s : State) : s.statusOut = s.status.toBits := rfl

theorem State.rdataOut_eq (s : State) : s.rdataOut = s.rdata := rfl

/-! ### The fault gate -/

theorem State.gated_of_running {s : State} (h : s.status.fault = false) (f : State → State) :
    s.gated f = f s := by
  simp [State.gated, h]

theorem State.gated_of_fault {s : State} (h : s.status.fault = true) (f : State → State) :
    s.gated f = s := by
  simp [State.gated, h]

/-- Everything a gated effect can do: nothing under a recorded fault, else the effect. -/
theorem State.gated_cases (s : State) (f : State → State) :
    (s.status.fault = true ∧ s.gated f = s) ∨ (s.status.fault = false ∧ s.gated f = f s) := by
  cases h : s.status.fault
  · exact .inr ⟨rfl, State.gated_of_running h f⟩
  · exact .inl ⟨rfl, State.gated_of_fault h f⟩

end Sys2Proof.Machine
end

