-- ==== Sys2Proof/Laws/Effects.lean ====
section
/-!
SUPPORT. One lemma for each shared operation that says everything it can do: fault entry, a register
write, the reverse schedule's fill, the search over the stored candidates, and a host move.
-/

namespace Sys2Proof.Machine

/-! ### Fault entry and register writes -/

theorem raise_onlyFault (s : State) (c : Cause) : OnlyFault c s (s.raise c) where
  fault := rfl
  cause := rfl
  found := rfl
  nf := rfl
  cv := rfl
  idx := rfl
  cr := rfl
  regs _ := rfl
  cand _ := rfl
  prov _ := rfl
  rdata := rfl
  wdata := rfl
  pending := rfl

theorem onlyRegs_refl (ds : List Reg) (s : State) : OnlyRegs ds s s where
  regs _ _ := rfl
  status := rfl
  cand _ := rfl
  prov _ := rfl
  rdata := rfl
  wdata := rfl
  pending := rfl

theorem OnlyRegs.trans {ds : List Reg} {s t u : State} (h : OnlyRegs ds s t) (h' : OnlyRegs ds t u) :
    OnlyRegs ds s u where
  regs r hr := (h'.regs r hr).trans (h.regs r hr)
  status := h'.status.trans h.status
  cand k := (h'.cand k).trans (h.cand k)
  prov k := (h'.prov k).trans (h.prov k)
  rdata := h'.rdata.trans h.rdata
  wdata := h'.wdata.trans h.wdata
  pending := h'.pending.trans h.pending

theorem OnlyRegs.mono {ds ds' : List Reg} {s t : State} (h : OnlyRegs ds s t)
    (hd : ∀ r ∈ ds, r ∈ ds') : OnlyRegs ds' s t where
  regs r hr := h.regs r fun hm => hr (hd r hm)
  status := h.status
  cand := h.cand
  prov := h.prov
  rdata := h.rdata
  wdata := h.wdata
  pending := h.pending

theorem writeX_onlyRegs (s : State) (d : Reg) (v : Word) : OnlyRegs [d] s (s.writeX d v) where
  regs r hr := State.readX_writeX_other s v (by simpa using hr)
  status := rfl
  cand _ := rfl
  prov _ := rfl
  rdata := rfl
  wdata := rfl
  pending := rfl

/-! ### The reverse schedule's fill -/

/-- The fill of 43 R103: PROV, CAND, CV and CR, and nothing else. -/
theorem fillSchedule_eq (pc : Bool) (m : List Slot) (rk : Word) (rnd : RoundIx) (s : State) :
    fillSchedule pc m rk rnd s =
      { s with
        prov := Memory.fill 64 fun q => slotByte (m.getD q .parity)
        cand := Memory.fill 256 (candidateOf pc m rk)
        status := s.status.afterFill rnd } := rfl

theorem readCand_fillSchedule (pc : Bool) (m : List Slot) (rk : Word) (rnd : RoundIx) (s : State)
    {i : Nat} (h : i < 256) : (fillSchedule pc m rk rnd s).readCand i = candidateOf pc m rk i :=
  State.readCand_fillCand s _ h

theorem readProv_fillSchedule (pc : Bool) (m : List Slot) (rk : Word) (rnd : RoundIx) (s : State)
    {q : Nat} (h : q < 64) :
    (fillSchedule pc m rk rnd s).readProv q = slotByte (m.getD q .parity) :=
  State.readProv_fillProv s (fun q => slotByte (m.getD q .parity)) h

@[simp] theorem readX_fillSchedule (pc : Bool) (m : List Slot) (rk : Word) (rnd : RoundIx)
    (s : State) (r : Reg) : (fillSchedule pc m rk rnd s).readX r = s.readX r := rfl

/-! ### The search -/

/-- The search depends on CAND alone. -/
theorem firstMatch_congr {s t : State} (h : t.cand = s.cand) (pt ct : Word) :
    firstMatch t pt ct = firstMatch s pt ct := by
  have hr : ∀ k, t.readCand k = s.readCand k := fun k => by simp [State.readCand, h]
  simp [firstMatch, hr]

/-- A match is the first: the stored candidate encrypts `pt` to `ct` and no earlier one does. -/
theorem firstMatch_eq_some {s : State} {pt ct : Word} {i : Nat} (h : firstMatch s pt ct = some i) :
    i < 256 ∧ encrypt (s.readCand i) pt = ct ∧ ∀ j, j < i → encrypt (s.readCand j) pt ≠ ct := by
  unfold firstMatch at h
  rw [List.find?_range_eq_some] at h
  obtain ⟨h1, h2, h3⟩ := h
  exact ⟨by simpa using h2, by simpa using h1, fun j hj => by simpa using h3 j hj⟩

/-- No match: none of the 256 stored candidates encrypts `pt` to `ct`. -/
theorem firstMatch_eq_none {s : State} {pt ct : Word} (h : firstMatch s pt ct = none) :
    ∀ j, j < 256 → encrypt (s.readCand j) pt ≠ ct := by
  intro j hj
  unfold firstMatch at h
  rw [List.find?_eq_none] at h
  simpa using h j (List.mem_range.2 hj)

/-- Everything the search can do: the first match's candidate with FOUND and its index, or 0 with
NF (44 R112). -/
theorem searchStored_cases (rd : Reg) (pt ct : Word) (s : State) :
    (∃ i, firstMatch s pt ct = some i ∧ searchStored rd pt ct s =
      (s.writeX rd (s.readCand i)).setStatus (s.status.afterMatch i)) ∨
    (firstMatch s pt ct = none ∧ searchStored rd pt ct s =
      (s.writeX rd 0).setStatus s.status.afterExhaustion) := by
  unfold searchStored
  cases h : firstMatch s pt ct with
  | some i => exact .inl ⟨i, rfl, rfl⟩
  | none => exact .inr ⟨rfl, rfl⟩

/-! ### A host move -/

theorem step_of_idle {s : State} (h : s.pending = []) : step s = .next s := by
  simp [step, takeMove, h]

theorem step_of_transaction {s : State} {w : CmdWord} {v : Word} {rest : List HostMove}
    (h : s.pending = .transaction ⟨w, v⟩ :: rest) :
    step s = runCommand w (s.present v rest) := by
  simp [step, takeMove, h]

theorem step_of_reset {s : State} {rest : List HostMove} (h : s.pending = .reset :: rest) :
    step s = .next { s.assertReset with pending := rest } := by
  simp [step, takeMove, h]

theorem runCommand_of_legal {w : CmdWord} {i : Instr} (h : decode w = .ok i) (s : State) :
    runCommand w s = exec i s := by
  simp [runCommand, h]

theorem runCommand_of_illegal {w : CmdWord} {e : Illegal} (h : decode w = .error e) (s : State) :
    runCommand w s = .next (s.gated fun s => s.raise .illegalCommand) := by
  simp [runCommand, h]

/-- Everything a step can do: keep an idle block, reset it, run a legal command, or take an illegal
word through the fault gate. -/
theorem step_cases (s : State) :
    (s.pending = [] ∧ step s = .next s) ∨
    (∃ rest, s.pending = .reset :: rest ∧
      step s = .next { s.assertReset with pending := rest }) ∨
    (∃ w v rest i, s.pending = .transaction ⟨w, v⟩ :: rest ∧ decode w = .ok i ∧
      step s = exec i (s.present v rest)) ∨
    (∃ w v rest e, s.pending = .transaction ⟨w, v⟩ :: rest ∧ decode w = .error e ∧
      step s = .next ((s.present v rest).gated fun s => s.raise .illegalCommand)) := by
  cases hp : s.pending with
  | nil => exact .inl ⟨rfl, step_of_idle hp⟩
  | cons m rest =>
    cases m with
    | reset => exact .inr (.inl ⟨rest, rfl, step_of_reset hp⟩)
    | transaction t =>
      obtain ⟨w, v⟩ := t
      cases hd : decode w with
      | ok i =>
        exact .inr (.inr (.inl ⟨w, v, rest, i, rfl, hd,
          (step_of_transaction hp).trans (runCommand_of_legal hd _)⟩))
      | error e =>
        exact .inr (.inr (.inr ⟨w, v, rest, e, rfl, hd,
          (step_of_transaction hp).trans (runCommand_of_illegal hd _)⟩))

end Sys2Proof.Machine
end

