-- ==== Sys2Proof/Laws/PerInstr.lean ====
section
/-!
SUPPORT. Statements for all instructions, one lemma per constructor (LAWS.json). The family
`EncodesOpcode`: the `op` field of an instruction's word is the opcode of its row of 30 R59.
-/

namespace Sys2Proof.Laws.EncodesOpcode

/-- `encode i` carries in `cmd[31:24]` the opcode the opcode map gives `i`'s row (30 R56, R59). -/
def Statement (i : Instr) : Prop := opField (encode i) = opField (opcodeRow i).pattern

theorem ldi (rd : Reg) : Statement (.ldi rd) := by
  simp only [Statement, encode, opField_packFields, opcodeRow]
  decide

theorem rdReg (rs1 : Reg) : Statement (.rdReg rs1) := by
  simp only [Statement, encode, opField_packFields, opcodeRow]
  decide

theorem rds (rd : Reg) : Statement (.rds rd) := by
  simp only [Statement, encode, opField_packFields, opcodeRow]
  decide

theorem setbit (rd rs1 : Reg) (srcPos dstPos : Pos) : Statement (.setbit rd rs1 srcPos dstPos) := by
  simp only [Statement, encode, opField_packB, opcodeRow]
  decide

theorem apply (rd rs1 : Reg) (tbl : TableSel) : Statement (.apply rd rs1 tbl) := by
  simp only [Statement, encode, opField_packFields, opcodeRow]
  decide

theorem perm (rd rs1 : Reg) (ui : Bool) : Statement (.perm rd rs1 ui) := by
  simp only [Statement, encode, opField_packFields, opcodeRow]
  decide

theorem ksf (rd rd2 rs1 : Reg) (rnd : RoundIx) : Statement (.ksf rd rd2 rs1 rnd) := by
  simp only [Statement, encode, opField_packFields, opcodeRow]
  decide

theorem frnd (rd rs1 rs2 : Reg) : Statement (.frnd rd rs1 rs2) := by
  simp only [Statement, encode, opField_packFields, opcodeRow]
  decide

theorem swap (rd rs1 : Reg) : Statement (.swap rd rs1) := by
  simp only [Statement, encode, opField_packFields, opcodeRow]
  decide

theorem ksr (rs1 : Reg) (rnd : RoundIx) : Statement (.ksr rs1 rnd) := by
  simp only [Statement, encode, opField_packFields, opcodeRow]
  decide

theorem ldc (rd : Reg) (idx8 : CandIx) : Statement (.ldc rd idx8) := by
  simp only [Statement, encode, opField_packM, opcodeRow]
  decide

theorem ldp (rd : Reg) (idx6 : Pos) : Statement (.ldp rd idx6) := by
  simp only [Statement, encode, opField_packM, opcodeRow]
  decide

theorem ksrch (rd rs1 rs2 rs3 : Reg) (rnd : RoundIx) : Statement (.ksrch rd rs1 rs2 rs3 rnd) := by
  simp only [Statement, encode, opField_packFields, opcodeRow]
  decide

theorem enc (rd rs1 rs2 : Reg) : Statement (.enc rd rs1 rs2) := by
  simp only [Statement, encode, opField_packFields, opcodeRow]
  decide


end Sys2Proof.Laws.EncodesOpcode
end

