-- ==== Sys2Proof/Tests/Slice0.lean ====
section
/-!
SUPPORT. Own tests: the WellFormed smoke, one decoding per constructor from words written out by the
spec's fields, single-step vectors of spec 95, and a witness for the hypotheses of every statement.
Expected values come from the spec's tables, never from the model.
-/

open Sys2Proof Sys2Proof.Machine

namespace Sys2Proof.Tests

/-! ### WellFormed smoke -/

theorem test_wellFormed_refuses_ksf_same_destination :
    Instr.wellFormed (.ksf 2 2 1 0) = false := by decide

theorem test_wellFormed_accepts_ksf : Instr.wellFormed (.ksf 2 1 1 0) = true := by decide

/-! ### Decoding, from the fields of 30 R57 (words of 30 R64 and 95 section 3.1 where it has one) -/

theorem test_decode_ldi : decode (0x01#8 ++ 0x1#4 ++ 0#20) = .ok (.ldi 1) := by decide
theorem test_decode_rd : decode 0x02070000 = .ok (.rdReg 7) := by decide
theorem test_decode_rds : decode 0x03F00000 = .ok (.rds 15) := by decide
theorem test_decode_setbit : decode 0x102103C0 = .ok (.setbit 2 1 15 0) := by decide
theorem test_decode_setbit_last : decode 0x1010003F = .ok (.setbit 1 0 0 63) := by decide
theorem test_decode_apply : decode 0x11210005 = .ok (.apply 2 1 .p) := by decide
theorem test_decode_perm : decode 0x12000001 = .ok (.perm 0 0 true) := by decide
theorem test_decode_ksf : decode 0x20213000 = .ok (.ksf 2 3 1 0) := by decide
theorem test_decode_frnd : decode 0x30002000 = .ok (.frnd 0 0 2) := by decide
theorem test_decode_swap : decode 0x31000000 = .ok (.swap 0 0) := by decide
theorem test_decode_ksr : decode 0x40020005 = .ok (.ksr 2 5) := by decide
theorem test_decode_ldc : decode 0x414000FF = .ok (.ldc 4 255) := by decide
theorem test_decode_ldp : decode 0x4240003F = .ok (.ldp 4 63) := by decide
theorem test_decode_ksrch : decode 0x5043050F = .ok (.ksrch 4 3 0 5 15) := by decide
theorem test_decode_enc : decode 0x51740000 = .ok (.enc 7 4 0) := by decide

/-- The encoder gives the words of 30 R64. -/
theorem test_encode_worked :
    encode (.setbit 1 0 63 0) = 0x10100FC0 ∧ encode (.ksf 2 1 1 15) = 0x2021100F ∧
    encode (.ksrch 4 3 0 5 0) = 0x50430500 ∧ encode (.ldp 5 5) = 0x42500005 ∧
    encode (.perm 0 0 true) = 0x12000001 ∧ encode (.ldc 4 127) = 0x4140007F := by decide

/-- The illegal words of 95 V42, by why they are illegal. -/
theorem test_illegal_reserved_opcode :
    [0x00000000, 0xFFFFFFFF, 0x04000000, 0x13000000, 0x52000000].map decode =
      List.replicate 5 (.error .reservedOpcode) := by decide

theorem test_illegal_must_be_zero :
    [0x01110000, 0x02100000, 0x10101000, 0x11210012, 0x12000002, 0x20211100, 0x30002001, 0x31001000,
      0x40130000, 0x41410000, 0x42500040, 0x50430510, 0x51610001].map decode =
      List.replicate 13 (.error .mustBeZero) := by decide

theorem test_illegal_operands :
    [0x11210006, 0x1121000F, 0x20212000].map decode =
      [.error .reservedTable, .error .reservedTable, .error .ksfSameDestination] := by decide

theorem test_decodeTableWord : decodeTableWord 32 0x42500005 = some (.ldp 5 5) := by decide

theorem test_assembly_ksf : assembly 0 (.ksf 2 1 1 15) = "KSF x2, x1, x1, 15" := by decide +kernel

/-! ### Small states -/

/-- The reset state with three registers set. -/
def withRegs (a b c : Reg) (va vb vc : Word) : State :=
  ((State.reset.writeX a va).writeX b vb).writeX c vc

/-- The state an outcome carries, or `s`. -/
def resultOf (o : Host.Outcome State Fault Refusal) (s : State) : State :=
  match o with
  | .next t => t
  | .fault _ => s
  | .refused _ => s

/-- What one command leaves. -/
def after (i : Instr) (s : State) : State := resultOf (exec i s) s

/-- `K`, `PT`, `CT` and `RK0` of 95. -/
def keyK : Word := 0x133457799BBCDFF1
def ptV : Word := 0x0123456789ABCDEF
def ctV : Word := 0x85E813540F0AB405
def rk0 : Word := 0x1B02EFFC70720000

/-! ### Host access (95 V41) -/

theorem test_ldi : (after (.ldi 15) { State.reset with wdata := 0xFFFFFFFFFFFFFFFF }).readX 15 =
    0xFFFFFFFFFFFFFFFF := by decide

theorem test_rd : (after (.rdReg 1) (State.reset.writeX 1 keyK)).rdataOut = 0x133457799BBCDFF1 := by
  decide

theorem test_rds : (after (.rds 15) (State.reset.setStatus
    { found := true, nf := false, cv := true, fault := false, cause := 0, idx := 127, cr := 0 })).readX
      15 = 0x7F05 := by decide

theorem test_status_round5 : (State.reset.setStatus
    { found := false, nf := false, cv := true, fault := false, cause := 0, idx := 0, cr := 5 }).statusOut
      = 0x50004 := by decide

/-! ### Bit permutation (95 V10, V13, V14, V17, V18) -/

theorem test_setbit_first_to_last :
    (after (.setbit 1 0 0 63) (State.reset.writeX 0 0x8000000000000000)).readX 1 = 1 := by decide

theorem test_setbit_same_register :
    (after (.setbit 1 1 1 2) (State.reset.writeX 1 0x4000000000000000)).readX 1 =
      0x6000000000000000 := by decide

theorem test_apply_all_tables :
    [TableSel.ip, .fp, .pc1, .pc2, .e, .p].map (fun t => applyTable (tableOf t) keyK) =
      [0xCCFF66DDF0AA7855, 0xCFCC3CA9FF330FAA, 0xF0CCAAF556678F00, 0xB10BDCD56F6F0000,
        0xCF7DF96FFFA30000, 0x6E347C0E00000000] := by decide +kernel

theorem test_apply_in_place :
    (after (.apply 1 1 .pc1) (State.reset.writeX 1 keyK)).readX 1 = 0xF0CCAAF556678F00 := by
  decide +kernel

theorem test_perm_initial :
    (after (.perm 0 0 true) (State.reset.writeX 0 ptV)).readX 0 = 0xCC00CCFFF0AAF0AA := by
  decide +kernel

theorem test_perm_final :
    (after (.perm 2 1 false) (State.reset.writeX 1 ptV)).readX 2 = 0xFF330FAA00330FAA := by
  decide +kernel

/-! ### Forward key schedule (95 V20, V22) -/

theorem test_ksf_round0 :
    ((after (.ksf 2 1 1 0) (State.reset.writeX 1 keyK)).readX 2,
      (after (.ksf 2 1 1 0) (State.reset.writeX 1 keyK)).readX 1) =
      (0x1B02EFFC70720000, 0xE19955FAACCF1E00) := by decide +kernel

/-- The high end of half R re-enters at the low end of half R (V22). -/
theorem test_keyStep_half_r :
    keyStep 1 0x0000000800000000 = (0x0000000001000000, 0x0000000000000100) := by decide +kernel

theorem test_subkeys :
    subkeys keyK =
      [0x1B02EFFC70720000, 0x79AED9DBC9E50000, 0x55FC8A42CF990000, 0x72ADD6DB351D0000,
        0x7CEC07EB53A80000, 0x63A53E507B2F0000, 0xEC84B7F618BC0000, 0xF78A3AC13BFB0000,
        0xE0DBEBEDE7810000, 0xB1F347BA464F0000, 0x215FD3DED3860000, 0x7571F59467E90000,
        0x97C5D1FABA410000, 0x5F43B7F2E73A0000, 0xBF918D3D3F0A0000, 0xCB3D8B0E17F50000] := by
  decide +kernel

/-! ### Feistel round (95 V24, V27, V29) -/

theorem test_substitute_row_bits :
    [0x0400000000000000, 0x8000000000000000, 0x00000000003F0000].map substitute =
      [0x0FA72C4D00000000, 0x4FA72C4D00000000, 0xEFA72C4B00000000] := by decide +kernel

theorem test_frnd :
    (after (.frnd 0 0 2) (withRegs 0 2 3 0xCC00CCFFF0AAF0AA rk0 0)).readX 0 = 0xF0AAF0AAEF4A6544 := by
  decide +kernel

theorem test_frnd_ignores_low_key :
    feistelRound 0 0x000000000000FFFF = 0x00000000D8D8DBBC := by decide +kernel

theorem test_swap :
    (after (.swap 0 0) (State.reset.writeX 0 ptV)).readX 0 = 0x89ABCDEF01234567 := by decide

/-! ### Reverse key schedule (95 V30 to V33, V37, V39, V43, V44) -/

theorem test_rkSrc_0 :
    rkSrc 0 = [9, 50, 33, 59, 48, 16, 32, 56, 1, 8, 18, 41, 2, 34, 25, 24, 43, 57, 58, 0, 35, 26, 17,
      40, 21, 27, 38, 53, 36, 3, 46, 29, 4, 52, 22, 28, 60, 20, 37, 62, 14, 19, 44, 13, 12, 61, 54,
      30] := by decide +kernel

/-- The table of 43 R107. -/
theorem test_unresolved_positions :
    (List.range 16).map unresolvedOf =
      [[5, 6, 10, 11, 42, 45, 49, 51], [2, 3, 34, 37, 41, 43, 60, 61],
        [18, 21, 25, 44, 45, 51, 54, 56], [2, 5, 9, 28, 29, 35, 38, 40],
        [12, 13, 22, 24, 48, 51, 52, 58], [6, 8, 27, 32, 35, 36, 42, 60],
        [11, 16, 20, 26, 44, 48, 53, 57], [0, 4, 10, 28, 32, 37, 41, 62],
        [2, 20, 24, 27, 29, 33, 54, 57], [4, 8, 11, 13, 17, 38, 41, 51],
        [1, 19, 22, 25, 35, 57, 60, 62], [3, 6, 9, 41, 44, 46, 48, 50],
        [25, 28, 30, 32, 34, 53, 54, 58], [9, 12, 14, 16, 18, 37, 38, 42],
        [0, 2, 21, 22, 26, 27, 58, 61], [13, 14, 18, 19, 50, 53, 57, 59]] := by decide +kernel

/-- Candidates of rounds 0, 5 and 15 with both values of `PARITY_COMPLEMENT` (V31 to V34). -/
theorem test_candidates_raw :
    (candidate false rk0 0 1, candidate false rk0 0 127, candidate false 0x63A53E507B2F0000 5 254,
      candidate false 0xCB3D8B0E17F50000 15 128) =
      (0x110556789A999FF0, 0x123556789ABDDEF0, 0x12B456789ABDDEF0, 0x123547789ABDDBA0) := by
  decide +kernel

theorem test_candidates_complement :
    (candidate true rk0 0 1, candidate true rk0 0 127, candidate true 0x63A53E507B2F0000 5 254,
      candidate true 0xCB3D8B0E17F50000 15 128) =
      (0x100457799B989EF1, 0x133457799BBCDFF1, 0x13B557799BBCDFF1, 0x133446799BBCDAA1) := by
  decide +kernel

/-- KSR for `PARITY_COMPLEMENT = false` (V31): STATUS, and LDC's word after it (V39). -/
theorem test_ksr :
    ((ksrEffect false (provMap 0) 3 0 (State.reset.writeX 3 rk0)).statusOut,
      (after (.ldc 4 255) (ksrEffect false (provMap 0) 3 0 (State.reset.writeX 3 rk0))).readX 4) =
      (0x00004, 0x173556789ABDDEF0) := by decide +kernel

/-- LDP after KSR of round 5 (V30: `PROV[0] = 0x10`, `PROV[63] = 0xC0`). -/
theorem test_ldp :
    ((after (.ldp 7 0) (ksrEffect true (provMap 5) 2 5 State.reset)).readX 7,
      (after (.ldp 9 63) (ksrEffect true (provMap 5) 2 5 State.reset)).readX 9) = (0x10, 0xC0) := by
  decide +kernel

theorem test_ldc_before_ksr : (after (.ldc 2 0) State.reset).statusOut = 0x00038 := by decide

theorem test_ldp_before_ksr : (after (.ldp 2 0) State.reset).statusOut = 0x00038 := by decide

/-- V44: with `PC2[47]` replaced by 29 the count is 9 and KSR records `InvariantViolation`. -/
theorem test_broken_table_is_caught :
    (ksrEffect false (checkedMap (rkSrcOf romPC1 (romPC2.take 47 ++ [29]) romROT 3)) 3 3
      State.reset).statusOut = 0x00028 := by decide +kernel

/-! ### Key recovery search (95 V38, V40) -/

theorem test_enc_known_answer :
    (after (.enc 6 1 0) (withRegs 1 0 2 keyK ptV 0)).readX 6 = ctV := by decide +kernel

/-- V38 with `PARITY_COMPLEMENT = true`: the first candidate matches. -/
theorem test_ksrch_first_candidate :
    ((ksrchEffect true (provMap 0) 4 3 0 5 0 (State.reset.writeX 5 0x8CA64DE9C1B123A7)).readX 4,
      (ksrchEffect true (provMap 0) 4 3 0 5 0 (State.reset.writeX 5 0x8CA64DE9C1B123A7)).statusOut) =
      (0x0101010101010101, 0x00005) := by decide +kernel

/-! ### Steps (95 V42, V45, P4; 70 R150) -/

theorem test_step_illegal_word :
    (resultOf (step (State.reset.withFetchWord 32 0x20212000)) State.reset).statusOut = 0x00018 := by
  decide

theorem test_priority_decode_first :
    (resultOf (step (State.reset.withFetchWord 32 0x41210000)) State.reset).statusOut = 0x00018 := by
  decide

/-- P4: under a recorded fault LDI is ignored. -/
theorem test_gate :
    (resultOf (step ((State.reset.raise .candInvalid).withFetchWord 32 0x01100000))
      State.reset).readX 1 = 0 := by decide

theorem test_reset_clears_fault :
    (resultOf (step { (State.reset.raise .candInvalid).writeX 1 5 with pending := [.reset] })
      State.reset) = State.reset := by decide

/-- 95 V11, 93 U1: the second write to position 5 breaks the SETBIT contract, two positions keep it. -/
theorem test_setbit_contract :
    (setbitContract [] [.setbit 1 0 0 5, .setbit 1 0 1 5] State.reset,
      setbitContract [] [.setbit 1 0 0 5, .setbit 1 0 1 6] State.reset) = (false, true) := by decide

/-! ### Witnesses: for every statement with hypotheses, a state and operands that meet them all -/

/-- A running block with a key, a plaintext and a mask in registers. -/
def sample : State := withRegs 1 0 15 keyK ptV 0xFFFFFFFFFFFFFFFF

/-- The block after a fault, with more registers than reset leaves. -/
def faulted : State := sample.raise .candInvalid

/-- The block with one transaction presented next. -/
def presenting (s : State) (w : CmdWord) (v : Word) : State :=
  { s with pending := [.transaction ⟨w, v⟩] }

/-- The block with the reverse schedule of round 0 of the zero round key stored. -/
def filled : State :=
  fillSchedule Config.parityComplement (slotsOf (rkSrc 0)) 0 0 State.reset

/-- `filled` meets the invariant. -/
theorem filled_inv : Inv filled where
  causeClear _ := rfl
  causeRecorded h := Bool.noConfusion h
  oneOutcome h := Bool.noConfusion h.1
  idxClear _ := rfl
  outcomeNeedsFill _ := rfl
  crClear h := Bool.noConfusion h
  unwrittenBefore h := Bool.noConfusion h
  candWf := Memory.fill_wf 256 _
  provWf := Memory.fill_wf 64 fun q => slotByte ((slotsOf (rkSrc 0)).getD q .parity)
  provOfRound _ q hq := by
    rw [filled, readProv_fillSchedule _ _ _ _ _ hq]
    simp [slotsOf, hq, fillSchedule]
  candOfRound _ := by
    refine ⟨0, fun i hi => ?_⟩
    have hm : provMap 0 = some (slotsOf (rkSrc 0)) := by decide +kernel
    rw [filled, readCand_fillSchedule _ _ _ _ _ hi]
    simp [candidate, fillSchedule, hm]
  foundIndex h := Bool.noConfusion h
  nfExhausted h := Bool.noConfusion h

theorem witness_ResetMoveGivesTheResetState :
    ({ faulted with pending := [.reset] } : State).pending = .reset :: [] := rfl

theorem witness_EveryStepKeepsTheInvariant : Inv filled ∧ step filled = .next filled :=
  ⟨filled_inv, rfl⟩

theorem witness_StepRunsTheDecodedCommand :
    (presenting sample 0x01F00000 7).pending = .transaction ⟨0x01F00000, 7⟩ :: [] ∧
      decode 0x01F00000 = .ok (.ldi 15) := ⟨rfl, by decide⟩

theorem witness_StepTakesExactlyTheNextMove :
    step (presenting faulted 0x01F00000 7) =
      .next { faulted with wdata := 7, pending := [] } ∧ sample.pending = [] := ⟨rfl, rfl⟩

theorem witness_IllegalWordRecordsTheFaultAlone :
    Running (presenting sample 0xFFFFFFFF 0) ∧
      (presenting sample 0xFFFFFFFF 0).pending = .transaction ⟨0xFFFFFFFF, 0⟩ :: [] ∧
      decode 0xFFFFFFFF = .error .reservedOpcode := ⟨rfl, rfl, by decide⟩

theorem witness_RecordedFaultIgnoresEveryTransaction :
    (presenting faulted 0 0).status.fault = true ∧
      (presenting faulted 0 0).pending = .transaction ⟨0, 0⟩ :: [] := ⟨rfl, rfl⟩

theorem witness_OnlyResetClearsAFault :
    ({ faulted with pending := [.reset] } : State).status.fault = true ∧
      step { faulted with pending := [.reset] } =
        .next { State.reset with wdata := faulted.wdata } := ⟨rfl, rfl⟩

theorem witness_LegalCommandsFaultOnlyWhereListed :
    (Running sample ∧ exec (.ksf 2 2 1 0) sample = .next (sample.raise .illegalCommand) ∧
      (sample.raise .illegalCommand).status.fault = true) ∧
    (exec (.ldc 2 255) sample = .next (sample.raise .candInvalid)) ∧
    exec (.ldp 2 63) sample = .next (sample.raise .candInvalid) := ⟨⟨rfl, rfl, rfl⟩, rfl, rfl⟩

theorem witness_FaultEntryChangesNothingElse :
    Running (presenting sample 0x41200000 0) ∧
      step (presenting sample 0x41200000 0) = .next faulted ∧ faulted.status.fault = true :=
  ⟨rfl, rfl, rfl⟩

theorem witness_InvariantViolationIsNeverRecorded :
    step (sample.raise .invariantViolation) = .next (sample.raise .invariantViolation) ∧
      (sample.raise .invariantViolation).status.cause = causeCode .invariantViolation :=
  ⟨rfl, rfl⟩

theorem witness_EachComponentHasItsWriters :
    exec (.rdReg 1) sample = .next (sample.setRdata keyK) ∧
      exec (.rds 0) sample = .next (sample.writeX 0 0) ∧
      (∀ rs1 rnd, Instr.rds 0 ≠ .ksr rs1 rnd) ∧
      (∀ rd rs1 rs2 rs3 rnd, Instr.rds 0 ≠ .ksrch rd rs1 rs2 rs3 rnd) ∧
      ∀ rs1, Instr.rds 0 ≠ .rdReg rs1 := by
  refine ⟨by rfl, by rfl, ?_, ?_, ?_⟩ <;> simp

theorem witness_OnlyLdiReadsWdata :
    (∀ rd, Instr.rds 0 ≠ .ldi rd) ∧ exec (.rds 0) sample = .next (sample.writeX 0 0) :=
  ⟨by simp, by rfl⟩

theorem witness_UnwrittenMemoryIsUnobservable :
    sample.status.cv = false ∧ exec (.rds 0) sample = .next (sample.writeX 0 0) := ⟨rfl, by rfl⟩

theorem witness_DecodeOfEncodeIsTheInstruction :
    Instr.wellFormed (.ksf 15 0 15 15) = true := by decide

theorem witness_EncodeOfDecodeIsTheWord :
    decode 0x10FF0FFF = .ok (.setbit 15 15 63 63) := by decide

theorem witness_PseudoInstructionsExpand : Running sample := rfl

theorem witness_LdiLoadsWdata : Running { sample with wdata := 0xFFFFFFFFFFFFFFFF } := rfl

theorem witness_RdShowsTheRegister : Running sample ∧ sample.readX 15 = 0xFFFFFFFFFFFFFFFF :=
  ⟨rfl, by decide⟩

theorem witness_RdsCopiesStatus : Running filled ∧ filled.status.cv = true := ⟨rfl, rfl⟩

/-- SETBIT at both ends of the position range, and with one register as source and destination. -/
theorem witness_SetbitOrsOnePosition :
    Running sample ∧ (after (.setbit 2 15 0 63) sample).readX 2 = 1 ∧
      (after (.setbit 2 15 63 0) sample).readX 2 = 0x8000000000000000 ∧
      (after (.setbit 15 15 7 7) sample).readX 15 = 0xFFFFFFFFFFFFFFFF :=
  ⟨rfl, by decide, by decide, by decide⟩

/-- APPLY PC1 of all ones: position 55 is the last the table writes, position 56 the first it clears
(95 V13). -/
theorem witness_ApplyMovesPositionsByTheTable :
    Running sample ∧ 55 < (tableOf .pc1).length ∧ (tableOf .pc1).length ≤ 56 ∧
      (after (.apply 2 15 .pc1) sample).readX 2 = 0xFFFFFFFFFFFFFF00 :=
  ⟨rfl, by decide, by decide, by decide +kernel⟩

theorem witness_PermIsTheBlockPermutation : Running sample := rfl

theorem witness_SetbitsInAnyOrderRebuildApply :
    Running sample ∧ (2 : Reg) ≠ 1 ∧ sample.readX 2 = 0 ∧
      List.Perm ((List.range (tableOf .p).length).map fun i =>
          Instr.setbit 2 1 (Fin.ofNat 64 ((tableOf .p).getD i 0 - 1)) (Fin.ofNat 64 i))
        ((List.range (tableOf .p).length).map fun i =>
          .setbit 2 1 (Fin.ofNat 64 ((tableOf .p).getD i 0 - 1)) (Fin.ofNat 64 i)) :=
  ⟨rfl, by decide, by decide, List.Perm.refl _⟩

/-- KSF in round 0 and in a later round, all ones: positions 55 and 47 are the last written, 56 and 48
the first cleared (95 V21). -/
theorem witness_KsfStepsTheSchedule :
    Running sample ∧ (2 : Reg) ≠ 15 ∧
      keyStep 0 0xFFFFFFFFFFFFFFFF = (0xFFFFFFFFFFFF0000, 0xFFFFFFFFFFFFFF00) ∧
      keyStep 3 0xFFFFFFFFFFFFFFFF = (0xFFFFFFFFFFFF0000, 0xFFFFFFFFFFFFFF00) :=
  ⟨rfl, by decide, by decide +kernel, by decide +kernel⟩

theorem witness_KsfWithOneDestinationIsIllegal : Running sample := rfl

theorem witness_ParityPositionsDoNotMatter :
    (∀ q, q < 64 → q % 8 ≠ 7 → bit keyK q = bit 0x123556789ABDDEF0 q) ∧
      bit keyK 7 ≠ bit 0x123556789ABDDEF0 7 := by decide +kernel

theorem witness_FrndIsOneFeistelRound : Running sample := rfl

theorem witness_FeistelFunctionReadsItsOperandsOnly :
    (∀ i, 32 ≤ i → i < 64 → bit 0xFFFFFFFF00000005 i = bit 0x0000000000000005 i) ∧
      ∀ i, i < 48 → bit 0x1B02EFFC70720000 i = bit 0x1B02EFFC7072FFFF i := by
  refine ⟨fun i h1 h2 => ?_, by decide +kernel⟩
  have key : ∀ i, i < 64 → 32 ≤ i → bit 0xFFFFFFFF00000005 i = bit 0x0000000000000005 i := by
    decide +kernel
  exact key i h2 h1

theorem witness_SwapExchangesTheHalves : Running sample := rfl

theorem witness_KsrStoresTheReverseSchedule : Running sample := rfl

/-- A position of each class of round 0 (95 V30). -/
theorem witness_ProvenanceMapInvertsTheSchedule :
    slotOf (rkSrc 0) 0 = .determined 0x13 ∧ slotOf (rkSrc 0) 9 = .determined 0 ∧
      slotOf (rkSrc 0) 5 = .unresolved ∧ (7 % 8 = 7 ∧ slotOf (rkSrc 0) 63 = .parity) := by
  decide +kernel

theorem witness_CandidatesAreDistinct :
    candidate true rk0 0 ((255 : CandIx) : Nat) = candidate true rk0 0 ((255 : CandIx) : Nat) := rfl

theorem witness_CandidatesAscend : (0 : CandIx) < 255 := by decide

theorem witness_CandidateBytesHaveTheirParity : (0 < 8) ∧ (7 < 8) := by decide

theorem witness_LdcAndLdpReadTheStoredElement : Running filled ∧ filled.status.cv = true :=
  ⟨rfl, rfl⟩

theorem witness_LdcAndLdpBeforeAFillFault : Running sample ∧ sample.status.cv = false := ⟨rfl, rfl⟩

theorem witness_LdpGivesASlotValue : Inv filled ∧ Running filled ∧ filled.status.cv = true :=
  ⟨filled_inv, rfl, rfl⟩

theorem witness_EncEncryptsOneBlock :
    Running sample ∧ sample.readX 1 = 0x133457799BBCDFF1 ∧ sample.readX 0 = 0x0123456789ABCDEF :=
  ⟨rfl, by decide, by decide⟩

theorem witness_PrimitiveCommandsComputeEnc :
    Running sample ∧ (0 : Reg) ≠ 1 ∧ (0 : Reg) ≠ 2 ∧ (1 : Reg) ≠ 2 := ⟨rfl, by decide⟩

theorem witness_KsrchFindsTheFirstMatch : Running sample := rfl

/-- 95 V35 row 0. -/
theorem witness_GenuineTripleIsRecovered :
    Running (withRegs 3 0 5 rk0 ptV ctV) ∧
      (withRegs 3 0 5 rk0 ptV ctV).readX 3 = subkey keyK ((0 : RoundIx) : Nat) ∧
      (withRegs 3 0 5 rk0 ptV ctV).readX 5 =
        encrypt keyK ((withRegs 3 0 5 rk0 ptV ctV).readX 0) :=
  ⟨rfl, by decide +kernel, by decide +kernel⟩

theorem witness_KsrchLeavesWhatKsrLeaves :
    Running sample ∧
      (searchStored 4 0 (encrypt (filled.readCand 0) 0) filled).status.found = true := by
  refine ⟨rfl, ?_⟩
  have h : firstMatch filled 0 (encrypt (filled.readCand 0) 0) = some 0 := by
    unfold firstMatch
    rw [List.find?_range_eq_some]
    exact ⟨by simp, by simp, by simp⟩
  rcases searchStored_cases 4 0 (encrypt (filled.readCand 0) 0) filled with ⟨i, hi, he⟩ | ⟨hn, _⟩
  · rw [he]
    rfl
  · rw [hn] at h
    exact absurd h (by simp)

end Sys2Proof.Tests
end

/-!
PROOFS of the scope family (00_scope.md): the shape of every command's meaning, and totality of a step.
-/

namespace Sys2Proof.Machine

/-- Every command's meaning is one effect behind the fault gate (60 R135, R137), so it is a next
state whatever the state is. -/
theorem exec_eq_next_gated (i : Instr) :
    ∃ f : State → State, ∀ s : State, exec i s = .next (s.gated f) := by
  cases i <;> exact ⟨_, fun _ => rfl⟩

theorem exec_eq_next (i : Instr) (s : State) : ∃ t, exec i s = .next t := by
  obtain ⟨f, hf⟩ := exec_eq_next_gated i
  exact ⟨s.gated f, hf s⟩

/-- Settles O6: by the four things a step can do, of which only a legal command's execution is not
written as a next state already. -/
theorem everyStepAnswersANextState : Obligations.EveryStepAnswersANextState := by
  intro s
  obtain ⟨_, h⟩ | ⟨_, _, h⟩ | ⟨_, v, rest, i, _, _, h⟩ | ⟨_, _, _, _, _, _, h⟩ := step_cases s
  · exact ⟨_, h⟩
  · exact ⟨_, h⟩
  · obtain ⟨t, ht⟩ := exec_eq_next i (s.present v rest)
    exact ⟨t, h.trans ht⟩
  · exact ⟨_, h⟩

end Sys2Proof.Machine

/-!
PROOFS of the state family (10_state.md): STATUS at its weights, the keys PC1 reads, what each command
does to each component of the state, and the machine invariant.
-/

namespace Sys2Proof.Machine

/-! ### STATUS and its fields (10 R13) -/

/-- A STATUS field lies in its own bits and nowhere else. -/
theorem getLsbD_statusAt {n lo : Nat} (h : lo + n ≤ 20) (f : BitVec n) (i : Nat) :
    (statusAt lo f).getLsbD i = (decide (lo ≤ i ∧ i < lo + n) && f.getLsbD (i - lo)) := by
  unfold statusAt
  by_cases hl : lo ≤ i
  · by_cases hu : i < lo + n
    · simp [hl, hu, Nat.not_lt.2 hl, show i < 20 by omega]
    · simp [hu, BitVec.getLsbD_of_ge f (i - lo) (by omega)]
  · simp [hl, Nat.lt_of_not_le hl]

/-- Bit `i` of a slice put back at its weight is bit `i` of the word, inside the slice. -/
theorem getLsbD_statusAt_extractLsb' {n lo : Nat} (h : lo + n ≤ 20) (w : BitVec 20) (i : Nat) :
    (statusAt lo (w.extractLsb' lo n)).getLsbD i =
      (decide (lo ≤ i ∧ i < lo + n) && w.getLsbD i) := by
  rw [getLsbD_statusAt h, BitVec.getLsbD_extractLsb']
  by_cases hi : lo ≤ i ∧ i < lo + n
  · simp [hi, show i - lo < n by omega]
  · simp [hi]

theorem ofBool_getLsbD (w : BitVec 20) (k : Nat) :
    BitVec.ofBool (w.getLsbD k) = w.extractLsb' k 1 := by
  apply BitVec.eq_of_getLsbD_eq
  intro i hi
  obtain rfl : i = 0 := by omega
  simp

theorem extractLsb'_statusAt_same {n lo : Nat} (h : lo + n ≤ 20) (f : BitVec n) :
    (statusAt lo f).extractLsb' lo n = f := by
  apply BitVec.eq_of_getLsbD_eq
  intro i hi
  rw [BitVec.getLsbD_extractLsb', getLsbD_statusAt h]
  simp [hi]

theorem extractLsb'_statusAt_other {n lo lo' len : Nat} (h : lo + n ≤ 20) (f : BitVec n)
    (hd : lo' + len ≤ lo ∨ lo + n ≤ lo') : (statusAt lo f).extractLsb' lo' len = 0#len := by
  apply BitVec.eq_of_getLsbD_eq
  intro i hi
  rw [BitVec.getLsbD_extractLsb', getLsbD_statusAt h]
  simp [show ¬(lo ≤ lo' + i ∧ lo' + i < lo + n) by omega]

theorem Status.ofBits_toBits (st : Status) : Status.ofBits st.toBits = st := by
  simp [Status.ofBits, Status.toBits, getLsbD_statusAt, BitVec.extractLsb'_or,
    extractLsb'_statusAt_same, extractLsb'_statusAt_other, -BitVec.getLsbD_eq_getElem]

theorem Status.toBits_ofBits (w : BitVec 20) : (Status.ofBits w).toBits = w := by
  apply BitVec.eq_of_getLsbD_eq
  intro i hi
  simp only [Status.toBits, Status.ofBits, ofBool_getLsbD, BitVec.getLsbD_or,
    getLsbD_statusAt_extractLsb' (by decide : 0 + 1 ≤ 20),
    getLsbD_statusAt_extractLsb' (by decide : 1 + 1 ≤ 20),
    getLsbD_statusAt_extractLsb' (by decide : 2 + 1 ≤ 20),
    getLsbD_statusAt_extractLsb' (by decide : 3 + 1 ≤ 20),
    getLsbD_statusAt_extractLsb' (by decide : 4 + 4 ≤ 20),
    getLsbD_statusAt_extractLsb' (by decide : 8 + 8 ≤ 20),
    getLsbD_statusAt_extractLsb' (by decide : 16 + 4 ≤ 20), ← Bool.and_or_distrib_right]
  rw [Bool.and_eq_right_iff_imp]
  intro _
  simp only [Bool.or_eq_true, decide_eq_true_eq]
  omega

/-- Settles O16: the first seven clauses are the fields of the round trip `Status.ofBits_toBits`. -/
theorem statusFieldsStandAtTheirWeights : Obligations.StatusFieldsStandAtTheirWeights := by
  intro s
  have h : Status.ofBits s.statusOut = s.status := Status.ofBits_toBits s.status
  exact ⟨congrArg Status.found h, congrArg Status.nf h, congrArg Status.cv h,
    congrArg Status.fault h, congrArg Status.cause h, congrArg Status.idx h,
    congrArg Status.cr h, h, Status.toBits_ofBits⟩

/-! ### Keys that agree on the data positions (10 R27) -/

/-- PC1 reads no parity position. -/
theorem romPC1_data (i : Nat) (h : i < 56) :
    romPC1.getD i 0 - 1 < 64 ∧ (romPC1.getD i 0 - 1) % 8 ≠ 7 := by
  have key : ∀ j : Fin 56, romPC1.getD j.val 0 - 1 < 64 ∧ (romPC1.getD j.val 0 - 1) % 8 ≠ 7 := by
    decide
  exact key ⟨i, h⟩

theorem applyTable_romPC1_congr {K K' : Word}
    (h : ∀ q, q < 64 → q % 8 ≠ 7 → bit K q = bit K' q) :
    applyTable romPC1 K = applyTable romPC1 K' := by
  apply word_ext
  intro i _
  rw [bit_applyTable romPC1_inRange, bit_applyTable romPC1_inRange]
  by_cases hi : i < 56
  · obtain ⟨hlt, hdata⟩ := romPC1_data i hi
    rw [h _ hlt hdata]
  · simp [show ¬i < romPC1.length from hi]

/-- The schedule takes the master key through PC1 only. -/
theorem subkeys_congr {K K' : Word} (h : applyTable romPC1 K = applyTable romPC1 K') :
    subkeys K = subkeys K' := by
  have hstep : keyStep 0 K = keyStep 0 K' := by simp [keyStep, stepState, h]
  have hrounds : List.range 16 = 0 :: List.range' 1 15 := by decide
  simp only [subkeys, hrounds, subkeysFrom, hstep]

/-- Settles O36: the schedule reads the key through PC1, which reads data positions only, and
encryption reads it through the schedule. -/
theorem parityPositionsDoNotMatter : Obligations.ParityPositionsDoNotMatter := by
  intro K K' h
  have hsub : subkeys K = subkeys K' := subkeys_congr (applyTable_romPC1_congr h)
  exact ⟨hsub, fun P => by simp only [encrypt, hsub]⟩

/-! ### The reverse schedule KSR and KSRCH store (43 R103, 44 R112) -/

theorem Memory.fill_congr {α : Type} {n : Nat} {f g : Nat → α} (h : ∀ k, k < n → f k = g k) :
    Memory.fill n f = Memory.fill n g := by
  refine List.map_congr_left fun k hk => ?_
  rw [h k (List.mem_range.1 hk)]

theorem unresolvedCount_rkSrc (R : RoundIx) : unresolvedCount (slotsOf (rkSrc R.val)) = 8 := by
  revert R
  decide +kernel

/-- With the ROM's tables the check of 43 R101 never fails (43 R107). -/
theorem provMap_eq_some (R : RoundIx) : provMap R.val = some (slotsOf (rkSrc R.val)) :=
  if_pos (unresolvedCount_rkSrc R)

theorem slotsOf_getD (src : List Nat) {q : Nat} (h : q < 64) :
    (slotsOf src).getD q .parity = slotOf src q := by
  simp [slotsOf, h]

/-- The block with the reverse schedule of `rk` in round `rnd` stored and no outcome of a search:
what KSR leaves, and what KSRCH searches. -/
def State.scheduled (s : State) (rk : Word) (rnd : RoundIx) : State :=
  { s with
    prov := Memory.fill 64 fun q => slotByte (slotOf (rkSrc rnd.val) q)
    cand := Memory.fill 256 (candidate Config.parityComplement rk rnd.val)
    status := (s.status.afterFill rnd).afterKsr }

/-- KSR's fill for the ROM's map, with FOUND, NF and IDX cleared. -/
theorem fillSchedule_slotsOf_afterKsr (rk : Word) (rnd : RoundIx) (s : State) :
    (fillSchedule Config.parityComplement (slotsOf (rkSrc rnd.val)) rk rnd s).setStatus
      (s.status.afterFill rnd).afterKsr = s.scheduled rk rnd := by
  have hprov : (Memory.fill 64 fun q => slotByte ((slotsOf (rkSrc rnd.val)).getD q .parity)) =
      Memory.fill 64 fun q => slotByte (slotOf (rkSrc rnd.val) q) :=
    Memory.fill_congr fun q hq => by rw [slotsOf_getD _ hq]
  have hcand : candidateOf Config.parityComplement (slotsOf (rkSrc rnd.val)) rk =
      candidate Config.parityComplement rk rnd.val := by
    funext i
    simp [candidate, provMap_eq_some]
  simp only [fillSchedule_eq, hprov, hcand]
  rfl

theorem ksrEffect_eq_scheduled (rs1 : Reg) (rnd : RoundIx) (s : State) :
    ksrEffect Config.parityComplement (provMap rnd.val) rs1 rnd s =
      s.scheduled (s.readX rs1) rnd := by
  rw [provMap_eq_some]
  exact fillSchedule_slotsOf_afterKsr _ rnd s

/-- A search overwrites the three fields KSR clears, so it may start from them cleared. -/
theorem searchStored_afterKsr (rd : Reg) (pt ct : Word) (s : State) :
    searchStored rd pt ct (s.setStatus s.status.afterKsr) = searchStored rd pt ct s := by
  unfold searchStored
  rw [firstMatch_congr (t := s.setStatus s.status.afterKsr) (s := s) rfl]
  cases firstMatch s pt ct <;> rfl

/-- KSRCH is KSR followed by the search of the stored candidates. -/
theorem ksrchEffect_eq_searchStored (rd rs1 rs2 rs3 : Reg) (rnd : RoundIx) (s : State) :
    ksrchEffect Config.parityComplement (provMap rnd.val) rd rs1 rs2 rs3 rnd s =
      searchStored rd (s.readX rs2) (s.readX rs3) (s.scheduled (s.readX rs1) rnd) := by
  rw [provMap_eq_some, ← fillSchedule_slotsOf_afterKsr]
  exact (searchStored_afterKsr rd _ _ _).symm

/-! ### Everything a command can do -/

/-- `Effect s i t`: one of the ways in which the command `i` takes `s` to `t`. -/
inductive Effect (s : State) : Instr → State → Prop where
  /-- A recorded fault: the command is ignored (60 R135). -/
  | ignored (i : Instr) : s.status.fault = true → Effect s i s
  /-- The general registers, and nothing else. -/
  | registers (i : Instr) (x : Vector Word 16) : Running s → (∀ rs1, i ≠ .rdReg rs1) →
      (∀ rs1 rnd, i ≠ .ksr rs1 rnd) → Effect s i { s with x := x }
  /-- RD (45 R121). -/
  | rdata (rs1 : Reg) : Running s → Effect s (.rdReg rs1) (s.setRdata (s.readX rs1))
  /-- KSR (43 R103). -/
  | schedule (rs1 : Reg) (rnd : RoundIx) : Running s →
      Effect s (.ksr rs1 rnd) (s.scheduled (s.readX rs1) rnd)
  /-- KSRCH (44 R112). -/
  | search (rd rs1 rs2 rs3 : Reg) (rnd : RoundIx) : Running s →
      Effect s (.ksrch rd rs1 rs2 rs3 rnd)
        (searchStored rd (s.readX rs2) (s.readX rs3) (s.scheduled (s.readX rs1) rnd))
  /-- KSF with one destination (41 R81). -/
  | oneDestination (rd rs1 : Reg) (rnd : RoundIx) : Running s →
      Effect s (.ksf rd rd rs1 rnd) (s.raise .illegalCommand)
  /-- LDC before a fill (60 R133). -/
  | ldcInvalid (rd : Reg) (idx : CandIx) : Running s → s.status.cv = false →
      Effect s (.ldc rd idx) (s.raise .candInvalid)
  /-- LDP before a fill (60 R133). -/
  | ldpInvalid (rd : Reg) (idx : Pos) : Running s → s.status.cv = false →
      Effect s (.ldp rd idx) (s.raise .candInvalid)

theorem Effect.next_gated {s t : State} {i : Instr} {f : State → State}
    (ht : (.next (s.gated f) : Host.Outcome State Fault Refusal) = .next t)
    (h : Running s → Effect s i (f s)) : Effect s i t := by
  obtain rfl := Host.Outcome.next.inj ht
  obtain ⟨hf, he⟩ | ⟨hr, he⟩ := State.gated_cases s f
  · rw [he]
    exact .ignored i hf
  · rw [he]
    exact h hr

theorem Effect.writeX {s : State} {i : Instr} (d : Reg) (v : Word) (hr : Running s)
    (hrd : ∀ rs1, i ≠ .rdReg rs1) (hksr : ∀ rs1 rnd, i ≠ .ksr rs1 rnd) :
    Effect s i (s.writeX d v) :=
  .registers i _ hr hrd hksr

/-- Everything a command can do, read off its meaning. -/
theorem effect_of_exec {i : Instr} {s t : State} (h : exec i s = .next t) : Effect s i t := by
  cases i with
  | ldi | rds | setbit | apply | perm | frnd | swap | enc =>
    exact .next_gated h fun hr => .writeX _ _ hr nofun nofun
  | rdReg rs1 => exact .next_gated h (.rdata rs1)
  | ksf rd rd2 rs1 rnd =>
    refine .next_gated h fun hr => ?_
    split
    · next hd => exact hd ▸ .oneDestination rd rs1 rnd hr
    · exact .registers _ _ hr nofun nofun
  | ksr rs1 rnd =>
    refine .next_gated h fun hr => ?_
    rw [ksrEffect_eq_scheduled]
    exact .schedule rs1 rnd hr
  | ldc rd idx =>
    refine .next_gated h fun hr => ?_
    split
    · exact .writeX _ _ hr nofun nofun
    · next hcv => exact .ldcInvalid rd idx hr (Bool.eq_false_iff.2 hcv)
  | ldp rd idx =>
    refine .next_gated h fun hr => ?_
    split
    · exact .writeX _ _ hr nofun nofun
    · next hcv => exact .ldpInvalid rd idx hr (Bool.eq_false_iff.2 hcv)
  | ksrch rd rs1 rs2 rs3 rnd =>
    refine .next_gated h fun hr => ?_
    rw [ksrchEffect_eq_searchStored]
    exact .search rd rs1 rs2 rs3 rnd hr

/-! ### Each component's writers (10 R10) -/

theorem searchStored_frame (rd : Reg) (pt ct : Word) (s : State) :
    (searchStored rd pt ct s).rdata = s.rdata ∧ (searchStored rd pt ct s).wdata = s.wdata ∧
      (searchStored rd pt ct s).pending = s.pending := by
  obtain ⟨i, _, he⟩ | ⟨_, he⟩ := searchStored_cases rd pt ct s
  · simp [he]
  · simp [he]

/-- Settles O13: by what the command can do. Only KSR and KSRCH reach the memories and the fields of
STATUS that are not FAULT and CAUSE, only RD reaches RDATA, and RD and KSR write no register. -/
theorem eachComponentHasItsWriters : Obligations.EachComponentHasItsWriters := by
  intro i s t h
  cases effect_of_exec h with
  | ignored => simp
  | registers _ _ _ hrd hksr =>
    refine ⟨rfl, rfl, fun _ => rfl, by simp, ?_⟩
    rintro (⟨rs1, rfl⟩ | ⟨rs1, rnd, rfl⟩)
    · exact absurd rfl (hrd rs1)
    · exact absurd rfl (hksr rs1 rnd)
  | rdata rs1 => simp
  | schedule rs1 rnd =>
    exact ⟨rfl, rfl, fun _ => rfl, fun hksr => absurd rfl (hksr rs1 rnd), fun _ _ => rfl⟩
  | search rd rs1 rs2 rs3 rnd =>
    obtain ⟨hrdata, hwdata, hpending⟩ :=
      searchStored_frame rd (s.readX rs2) (s.readX rs3) (s.scheduled (s.readX rs1) rnd)
    exact ⟨hwdata, hpending, fun _ => hrdata,
      fun _ hksrch => absurd rfl (hksrch rd rs1 rs2 rs3 rnd), by simp⟩
  | oneDestination => simp
  | ldcInvalid => simp
  | ldpInvalid => simp

/-! ### The machine invariant -/

/-- The invariant speaks of STATUS and the memories only. -/
theorem Inv.congr {s t : State} (h : Inv s) (hst : t.status = s.status) (hc : t.cand = s.cand)
    (hp : t.prov = s.prov) : Inv t := by
  cases s
  cases t
  subst hst hc hp
  exact { h with }

theorem inv_reset : Inv State.reset where
  causeClear _ := rfl
  causeRecorded := nofun
  oneOutcome := nofun
  idxClear _ := rfl
  outcomeNeedsFill := nofun
  crClear _ := rfl
  unwrittenBefore _ := ⟨rfl, rfl⟩
  candWf := Memory.nil_wf 256
  provWf := Memory.nil_wf 64
  provOfRound := nofun
  candOfRound := nofun
  foundIndex := nofun
  nfExhausted := nofun

/-- Fault entry keeps the invariant; `InvariantViolation` is the one cause it excludes. -/
theorem Inv.raise {s : State} (h : Inv s) {c : Cause} (hc : c = .illegalCommand ∨ c = .candInvalid) :
    Inv (s.raise c) :=
  { h with
    causeClear := nofun
    causeRecorded := fun _ => hc.imp (congrArg causeCode) (congrArg causeCode) }

/-- The fill restores every clause but the one on a running block's CAUSE, which it leaves alone. -/
theorem Inv.scheduled {s : State} (h : Inv s) (hr : Running s) (rk : Word) (rnd : RoundIx) :
    Inv (s.scheduled rk rnd) where
  causeClear _ := h.causeClear hr
  causeRecorded hf := absurd hf (ne_true_of_eq_false hr)
  oneOutcome := nofun
  idxClear _ := rfl
  outcomeNeedsFill _ := rfl
  crClear := nofun
  unwrittenBefore := nofun
  candWf := Memory.fill_wf 256 _
  provWf := Memory.fill_wf 64 fun q => slotByte (slotOf (rkSrc rnd.val) q)
  provOfRound _ _ hq := State.readProv_fillProv s _ hq
  candOfRound _ := ⟨rk, fun _ hi => State.readCand_fillCand s _ hi⟩
  foundIndex := nofun
  nfExhausted := nofun

/-- A search of the stored candidates is its own witness of the outcome it records. -/
theorem Inv.searchStored {s : State} (h : Inv s) (hcv : s.status.cv = true) (rd : Reg)
    (pt ct : Word) : Inv (searchStored rd pt ct s) := by
  obtain ⟨i, hi, he⟩ | ⟨hn, he⟩ := searchStored_cases rd pt ct s
  · have hlt : i < 256 := (firstMatch_eq_some hi).1
    have hidx : (BitVec.ofNat 8 i).toNat = i := by simp; omega
    rw [he]
    exact { h with
      oneOutcome := nofun
      idxClear := nofun
      outcomeNeedsFill := fun _ => hcv
      foundIndex := fun _ => ⟨pt, ct, hidx.symm ▸ hi⟩
      nfExhausted := nofun }
  · rw [he]
    exact { h with
      oneOutcome := nofun
      idxClear := fun _ => rfl
      outcomeNeedsFill := fun _ => hcv
      foundIndex := nofun
      nfExhausted := fun _ => ⟨pt, ct, hn⟩ }

/-- Every command keeps the invariant. -/
theorem Inv.effect {s t : State} {i : Instr} (h : Inv s) (he : Effect s i t) : Inv t := by
  cases he with
  | ignored => exact h
  | registers => exact h.congr rfl rfl rfl
  | rdata => exact h.congr rfl rfl rfl
  | schedule rs1 rnd hr => exact h.scheduled hr _ rnd
  | search rd rs1 rs2 rs3 rnd hr => exact (h.scheduled hr _ rnd).searchStored rfl rd _ _
  | oneDestination => exact h.raise (.inl rfl)
  | ldcInvalid => exact h.raise (.inr rfl)
  | ldpInvalid => exact h.raise (.inr rfl)

theorem Inv.gated {s : State} (h : Inv s) {f : State → State} (hf : Inv (f s)) : Inv (s.gated f) := by
  obtain ⟨_, he⟩ | ⟨_, he⟩ := State.gated_cases s f
  · rwa [he]
  · rwa [he]

/-- Settles O3: by the four things a step can do. Reset gives a state that meets the invariant, an
illegal word is a fault entry, and a command's part is `Inv.effect`. -/
theorem everyStepKeepsTheInvariant : Obligations.EveryStepKeepsTheInvariant := by
  intro s t hs ht
  obtain ⟨_, h⟩ | ⟨rest, _, h⟩ | ⟨_, v, rest, i, _, _, h⟩ | ⟨_, v, rest, _, _, _, h⟩ := step_cases s
  · obtain rfl := Host.Outcome.next.inj (h.symm.trans ht)
    exact hs
  · obtain rfl := Host.Outcome.next.inj (h.symm.trans ht)
    exact inv_reset.congr rfl rfl rfl
  · have hp : Inv (s.present v rest) := hs.congr rfl rfl rfl
    exact hp.effect (effect_of_exec (h.symm.trans ht))
  · obtain rfl := Host.Outcome.next.inj (h.symm.trans ht)
    have hp : Inv (s.present v rest) := hs.congr rfl rfl rfl
    exact hp.gated (hp.raise (.inl rfl))

end Sys2Proof.Machine

/-!
PROOFS of the encoding family (30_encoding.md): the decoder and the encoder invert each other, the
opcode map, the pseudo-instructions, the worked encodings and the illegal word.
-/

namespace Sys2Proof.Machine

/-! ### Operands and their fields (30 R56, R58) -/

@[simp] theorem regOf_nibbleOf (r : Reg) : regOf (nibbleOf r) = r := rfl
@[simp] theorem nibbleOf_regOf (f : BitVec 4) : nibbleOf (regOf f) = f := rfl
@[simp] theorem roundOf_nibbleOf (r : RoundIx) : roundOf (nibbleOf r) = r := rfl
@[simp] theorem nibbleOf_roundOf (f : BitVec 4) : nibbleOf (roundOf f) = f := rfl
@[simp] theorem posOf_ofFin (p : Pos) : posOf (BitVec.ofFin p) = p := rfl
@[simp] theorem ofFin_posOf (f : BitVec 6) : BitVec.ofFin (posOf f) = f := rfl
@[simp] theorem candIxOf_ofFin (k : CandIx) : candIxOf (BitVec.ofFin k) = k := rfl
@[simp] theorem ofFin_candIxOf (f : BitVec 8) : BitVec.ofFin (candIxOf f) = f := rfl

@[simp] theorem nibbleOf_inj {r q : Fin 16} : nibbleOf r = nibbleOf q ↔ r = q :=
  ⟨congrArg BitVec.toFin, congrArg nibbleOf⟩

theorem regOf_inj {f g : BitVec 4} : regOf f = regOf g ↔ f = g :=
  ⟨congrArg nibbleOf, congrArg regOf⟩

theorem tableSelOf_eq_some {f : BitVec 4} {t : TableSel} :
    tableSelOf f = some t ↔ tableSelCode t = f := by
  cases t <;> revert f <;> decide

@[simp] theorem tableSelOf_tableSelCode (t : TableSel) : tableSelOf (tableSelCode t) = some t :=
  tableSelOf_eq_some.2 rfl

theorem toNat_tableSelCode_le (t : TableSel) : (tableSelCode t).toNat ≤ 5 := by
  cases t <;> decide

/-- The selectors 0 to 5 are the ones that name a table (30 R58). -/
theorem tableSelOf_isSome : ∀ f : BitVec 4, f.toNat ≤ 5 → (tableSelOf f).isSome = true := by
  decide

theorem whenZero_eq_ok {z : Bool} {i j : Instr} : whenZero z i = .ok j ↔ z = true ∧ i = j := by
  cases z <;> simp [whenZero]

/-! PERM's `ui` and LDP's `idx6` are narrower than the field they stand in. -/

theorem setWidth_ui_extract (ui : Bool) :
    (((BitVec.ofBool ui).setWidth 4).extractLsb' 0 1 == 1#1) = ui ∧
      ((BitVec.ofBool ui).setWidth 4).extractLsb' 1 3 = 0 := by
  revert ui
  decide

/-- PERM's low field holds nothing but `ui` exactly when its must-be-zero bits are 0. -/
theorem fField_eq_ui_iff (w : CmdWord) :
    fField w = (BitVec.ofBool (uiField w == 1#1)).setWidth 4 ↔ permZeroField w = 0#3 := by
  rw [uiField_eq, permZeroField_eq]
  generalize fField w = f
  revert f
  decide

theorem setWidth_idx6_extract (x : BitVec 6) :
    (x.setWidth 8).extractLsb' 0 6 = x ∧ (x.setWidth 8).extractLsb' 6 2 = 0 := by
  revert x
  decide

/-- LDP's low byte holds nothing but `idx6` exactly when its must-be-zero bits are 0. -/
theorem idx8Field_eq_low6_iff (w : CmdWord) :
    idx8Field w = (low6Field w).setWidth 8 ↔ ldpZeroField w = 0#2 := by
  rw [low6Field_eq, ldpZeroField_eq]
  generalize idx8Field w = f
  revert f
  decide

/-! ### Words field by field (30 R56, R57) -/

theorem word_eq_iff_fields {v w : CmdWord} :
    v = w ↔ opField v = opField w ∧ aField v = aField w ∧ bField v = bField w ∧
      cField v = cField w ∧ dField v = dField w ∧ eField v = eField w ∧ fField v = fField w := by
  constructor
  · rintro rfl
    simp
  · rintro ⟨hop, ha, hb, hc, hd, he, hf⟩
    rw [← packFields_fields v, hop, ha, hb, hc, hd, he, hf, packFields_fields]

section fields
variable {w : CmdWord} {op low : BitVec 8} {a b c d e f : BitVec 4} {src dst : BitVec 6}

theorem packFields_eq_iff :
    packFields op a b c d e f = w ↔ opField w = op ∧ aField w = a ∧ bField w = b ∧ cField w = c ∧
      dField w = d ∧ eField w = e ∧ fField w = f := by
  simp [eq_comm (b := w), word_eq_iff_fields]

theorem packB_eq_iff :
    packB op a b c src dst = w ↔ opField w = op ∧ aField w = a ∧ bField w = b ∧ cField w = c ∧
      srcPosField w = src ∧ low6Field w = dst := by
  constructor
  · rintro rfl
    simp
  · rintro ⟨rfl, rfl, rfl, rfl, rfl, rfl⟩
    exact packB_fields w

theorem packM_eq_iff :
    packM op a b c d low = w ↔ opField w = op ∧ aField w = a ∧ bField w = b ∧ cField w = c ∧
      dField w = d ∧ idx8Field w = low := by
  constructor
  · rintro rfl
    simp
  · rintro ⟨rfl, rfl, rfl, rfl, rfl, rfl⟩
    exact packM_fields w

end fields

/-! ### The round trips -/

/-- The encoding of a well-formed instruction decodes to it. -/
theorem decode_encode {i : Instr} (h : i.wellFormed = true) : decode (encode i) = .ok i := by
  cases i with
  | apply rd rs1 t => simp [encode, decode, decodeApply]
  | ksf rd rd2 rs1 rnd =>
    have hd : rd ≠ rd2 := bne_iff_ne.1 h
    simp [encode, decode, decodeKsf, hd]
  | perm rd rs1 ui =>
    obtain ⟨hui, hzero⟩ := setWidth_ui_extract ui
    simp [encode, decode, whenZero, permZeroField_eq, uiField_eq, hui, hzero]
  | ldp rd idx =>
    obtain ⟨hidx, hzero⟩ := setWidth_idx6_extract (BitVec.ofFin idx)
    simp [encode, decode, whenZero, ldpZeroField_eq, low6Field_eq, hidx, hzero]
  | ldi | rdReg | rds | setbit | frnd | swap | ksr | ldc | ksrch | enc =>
    simp [encode, decode, whenZero]

/-- Settles O17, by the case split over the commands in `decode_encode`. -/
theorem decodeOfEncodeIsTheInstruction : Obligations.DecodeOfEncodeIsTheInstruction :=
  fun _ h => decode_encode h

/-- `i` is well formed and `w` is its word. -/
def IsCode (w : CmdWord) (i : Instr) : Prop := encode i = w ∧ i.wellFormed = true

theorem isCode_of_ite {w : CmdWord} {p : Prop} [Decidable p] {x y : Except Illegal Instr} {i : Instr}
    (h : (if p then x else y) = .ok i) (hx : p → x = .ok i → IsCode w i)
    (hy : y = .ok i → IsCode w i) : IsCode w i := by
  split at h
  · next hp => exact hx hp h
  · exact hy h

/-- A row of the decoder's chain without operands to check: its words are the code of the row's
command when the unused bits are zero. -/
theorem isCode_of_whenZero {w : CmdWord} {p : Prop} [Decidable p] {z : Bool} {i j : Instr}
    {y : Except Illegal Instr} (h : (if p then whenZero z i else y) = .ok j)
    (hw : i.wellFormed = true) (he : p → z = true → encode i = w) (hy : y = .ok j → IsCode w j) :
    IsCode w j := by
  refine isCode_of_ite h (fun hp hx => ?_) hy
  obtain ⟨hz, rfl⟩ := whenZero_eq_ok.1 hx
  exact ⟨he hp hz, hw⟩

theorem isCode_of_decodeApply {w : CmdWord} {i : Instr} (hop : opField w = 0x11)
    (h : decodeApply w = .ok i) : IsCode w i := by
  unfold decodeApply at h
  split at h
  · next hz =>
    split at h
    · next t ht =>
      cases h
      refine ⟨?_, rfl⟩
      simpa [encode, packFields_eq_iff, hop, tableSelOf_eq_some.1 ht, and_assoc] using hz
    · cases h
  · cases h

theorem isCode_of_decodeKsf {w : CmdWord} {i : Instr} (hop : opField w = 0x20)
    (h : decodeKsf w = .ok i) : IsCode w i := by
  unfold decodeKsf at h
  split at h
  · next hz =>
    split at h
    · cases h
    · next hd =>
      cases h
      refine ⟨?_, bne_iff_ne.2 (regOf_inj.not.2 hd)⟩
      simpa [encode, packFields_eq_iff, hop] using hz
  · cases h

/-- A word that decodes is the code of what it decodes to: the decoder's chain, row by row. -/
theorem isCode_of_decode {w : CmdWord} {i : Instr} (h : decode w = .ok i) : IsCode w i := by
  unfold decode at h
  refine isCode_of_whenZero h rfl
    (fun hop hz => by simpa [encode, packFields_eq_iff, hop, and_assoc] using hz) fun h => ?_
  refine isCode_of_whenZero h rfl
    (fun hop hz => by simpa [encode, packFields_eq_iff, hop, and_assoc] using hz) fun h => ?_
  refine isCode_of_whenZero h rfl
    (fun hop hz => by simpa [encode, packFields_eq_iff, hop, and_assoc] using hz) fun h => ?_
  refine isCode_of_whenZero h rfl
    (fun hop hz => by simpa [encode, packB_eq_iff, hop, and_assoc] using hz) fun h => ?_
  refine isCode_of_ite h isCode_of_decodeApply fun h => ?_
  refine isCode_of_whenZero h rfl
    (fun hop hz => by simpa [encode, packFields_eq_iff, hop, fField_eq_ui_iff, and_assoc] using hz)
    fun h => ?_
  refine isCode_of_ite h isCode_of_decodeKsf fun h => ?_
  refine isCode_of_whenZero h rfl
    (fun hop hz => by simpa [encode, packFields_eq_iff, hop, and_assoc] using hz) fun h => ?_
  refine isCode_of_whenZero h rfl
    (fun hop hz => by simpa [encode, packFields_eq_iff, hop, and_assoc] using hz) fun h => ?_
  refine isCode_of_whenZero h rfl
    (fun hop hz => by simpa [encode, packFields_eq_iff, hop, and_assoc] using hz) fun h => ?_
  refine isCode_of_whenZero h rfl
    (fun hop hz => by simpa [encode, packM_eq_iff, hop, and_assoc] using hz) fun h => ?_
  refine isCode_of_whenZero h rfl
    (fun hop hz => by simpa [encode, packM_eq_iff, hop, idx8Field_eq_low6_iff, and_assoc] using hz)
    fun h => ?_
  refine isCode_of_whenZero h rfl
    (fun hop hz => by simpa [encode, packFields_eq_iff, hop, and_assoc] using hz) fun h => ?_
  refine isCode_of_whenZero h rfl
    (fun hop hz => by simpa [encode, packFields_eq_iff, hop, and_assoc] using hz) fun h => ?_
  cases h

/-- Settles O18, along the decoder's chain of opcodes in `isCode_of_decode`. -/
theorem encodeOfDecodeIsTheWord : Obligations.EncodeOfDecodeIsTheWord :=
  fun _ _ h => isCode_of_decode h

/-! ### The opcode map (30 R59) -/

theorem cmdSlice_and (v w : CmdWord) (lo len : Nat) :
    cmdSlice (v &&& w) lo len = cmdSlice v lo len &&& cmdSlice w lo len :=
  BitVec.extractLsb'_and

theorem and_byteMask (x : BitVec 8) : x &&& 255#8 = x := BitVec.and_allOnes
theorem and_nibbleMask (x : BitVec 4) : x &&& 15#4 = x := BitVec.and_allOnes

/-- A word matches a row's pattern under a mask, field by field. -/
theorem and_packFields_eq_iff (w : CmdWord) (op : BitVec 8) (a b c d e f : BitVec 4) :
    w &&& packFields 0xFF a b c d e f = packFields op 0 0 0 0 0 0 ↔
      opField w = op ∧ aField w &&& a = 0 ∧ bField w &&& b = 0 ∧ cField w &&& c = 0 ∧
        dField w &&& d = 0 ∧ eField w &&& e = 0 ∧ fField w &&& f = 0 := by
  have hand (w v : CmdWord) : opField (w &&& v) = opField w &&& opField v ∧
      aField (w &&& v) = aField w &&& aField v ∧ bField (w &&& v) = bField w &&& bField v ∧
      cField (w &&& v) = cField w &&& cField v ∧ dField (w &&& v) = dField w &&& dField v ∧
      eField (w &&& v) = eField w &&& eField v ∧ fField (w &&& v) = fField w &&& fField v := by
    simp [opField, aField, bField, cField, dField, eField, fField, cmdSlice_and]
  simp [word_eq_iff_fields, hand, and_byteMask]

/-- PERM's must-be-zero bits under its mask. -/
theorem fField_and_eq_zero_iff (w : CmdWord) : fField w &&& 14#4 = 0#4 ↔ permZeroField w = 0#3 := by
  rw [permZeroField_eq]
  generalize fField w = f
  revert f
  decide

theorem ldpZeroField_eq_eField (w : CmdWord) : ldpZeroField w = (eField w).extractLsb' 2 2 := by
  apply BitVec.eq_of_getLsbD_eq
  intro i hi
  simp only [ldpZeroField, eField, BitVec.getLsbD_extractLsb', getLsbD_cmdSlice]
  rw [show 6 + i = 4 + (2 + i) by omega]
  simp [show 2 + i < 4 by omega]

/-- LDP's must-be-zero bits under its mask. -/
theorem eField_and_eq_zero_iff (w : CmdWord) : eField w &&& 12#4 = 0#4 ↔ ldpZeroField w = 0#2 := by
  rw [ldpZeroField_eq_eField]
  generalize eField w = e
  revert e
  decide

/-- `w` has the opcode of `j`'s row, and the bits its format does not use are zero (30 R57). -/
def FitsFormat (w : CmdWord) : Instr → Prop
  | .ldi _ => opField w = 0x01 ∧
      bField w = 0 ∧ cField w = 0 ∧ dField w = 0 ∧ eField w = 0 ∧ fField w = 0
  | .rdReg _ => opField w = 0x02 ∧
      aField w = 0 ∧ cField w = 0 ∧ dField w = 0 ∧ eField w = 0 ∧ fField w = 0
  | .rds _ => opField w = 0x03 ∧
      bField w = 0 ∧ cField w = 0 ∧ dField w = 0 ∧ eField w = 0 ∧ fField w = 0
  | .setbit _ _ _ _ => opField w = 0x10 ∧ cField w = 0
  | .apply _ _ _ => opField w = 0x11 ∧ cField w = 0 ∧ dField w = 0 ∧ eField w = 0
  | .perm _ _ _ => opField w = 0x12 ∧
      cField w = 0 ∧ dField w = 0 ∧ eField w = 0 ∧ permZeroField w = 0
  | .ksf _ _ _ _ => opField w = 0x20 ∧ dField w = 0 ∧ eField w = 0
  | .frnd _ _ _ => opField w = 0x30 ∧ dField w = 0 ∧ eField w = 0 ∧ fField w = 0
  | .swap _ _ => opField w = 0x31 ∧ cField w = 0 ∧ dField w = 0 ∧ eField w = 0 ∧ fField w = 0
  | .ksr _ _ => opField w = 0x40 ∧ aField w = 0 ∧ cField w = 0 ∧ dField w = 0 ∧ eField w = 0
  | .ldc _ _ => opField w = 0x41 ∧ bField w = 0 ∧ cField w = 0 ∧ dField w = 0
  | .ldp _ _ => opField w = 0x42 ∧
      bField w = 0 ∧ cField w = 0 ∧ dField w = 0 ∧ ldpZeroField w = 0
  | .ksrch _ _ _ _ _ => opField w = 0x50 ∧ eField w = 0
  | .enc _ _ _ => opField w = 0x51 ∧ dField w = 0 ∧ eField w = 0 ∧ fField w = 0

/-- The rows' mask and match numbers say what the formats say; each case writes the row's mask as its
fields. -/
theorem opcodeRow_match_iff (w : CmdWord) (j : Instr) :
    w &&& (opcodeRow j).mask = (opcodeRow j).pattern ↔ FitsFormat w j := by
  cases j with
  | ldi =>
    exact (and_packFields_eq_iff w 0x01 0 0xF 0xF 0xF 0xF 0xF).trans
      (by simp [FitsFormat, and_nibbleMask])
  | rdReg =>
    exact (and_packFields_eq_iff w 0x02 0xF 0 0xF 0xF 0xF 0xF).trans
      (by simp [FitsFormat, and_nibbleMask])
  | rds =>
    exact (and_packFields_eq_iff w 0x03 0 0xF 0xF 0xF 0xF 0xF).trans
      (by simp [FitsFormat, and_nibbleMask])
  | setbit =>
    exact (and_packFields_eq_iff w 0x10 0 0 0xF 0 0 0).trans (by simp [FitsFormat, and_nibbleMask])
  | apply =>
    exact (and_packFields_eq_iff w 0x11 0 0 0xF 0xF 0xF 0).trans
      (by simp [FitsFormat, and_nibbleMask])
  | perm =>
    exact (and_packFields_eq_iff w 0x12 0 0 0xF 0xF 0xF 0xE).trans
      (by simp [FitsFormat, and_nibbleMask, fField_and_eq_zero_iff])
  | ksf =>
    exact (and_packFields_eq_iff w 0x20 0 0 0 0xF 0xF 0).trans (by simp [FitsFormat, and_nibbleMask])
  | frnd =>
    exact (and_packFields_eq_iff w 0x30 0 0 0 0xF 0xF 0xF).trans
      (by simp [FitsFormat, and_nibbleMask])
  | swap =>
    exact (and_packFields_eq_iff w 0x31 0 0 0xF 0xF 0xF 0xF).trans
      (by simp [FitsFormat, and_nibbleMask])
  | ksr =>
    exact (and_packFields_eq_iff w 0x40 0xF 0 0xF 0xF 0xF 0).trans
      (by simp [FitsFormat, and_nibbleMask])
  | ldc =>
    exact (and_packFields_eq_iff w 0x41 0 0xF 0xF 0xF 0 0).trans
      (by simp [FitsFormat, and_nibbleMask])
  | ldp =>
    exact (and_packFields_eq_iff w 0x42 0 0xF 0xF 0xF 0xC 0).trans
      (by simp [FitsFormat, and_nibbleMask, eField_and_eq_zero_iff])
  | ksrch =>
    exact (and_packFields_eq_iff w 0x50 0 0 0 0 0xF 0).trans (by simp [FitsFormat, and_nibbleMask])
  | enc =>
    exact (and_packFields_eq_iff w 0x51 0 0 0 0xF 0xF 0xF).trans
      (by simp [FitsFormat, and_nibbleMask])

theorem encode_fitsFormat (i : Instr) : FitsFormat (encode i) i := by
  cases i with
  | perm rd rs1 ui => simp [FitsFormat, encode, permZeroField_eq, setWidth_ui_extract]
  | ldp rd idx => simp [FitsFormat, encode, ldpZeroField_eq, setWidth_idx6_extract]
  | ldi | rdReg | rds | setbit | apply | ksf | frnd | swap | ksr | ldc | ksrch | enc =>
    simp [FitsFormat, encode]

/-- A word of `j`'s format that meets the row's extra condition decodes to a command of the row. -/
theorem decode_of_fitsFormat {w : CmdWord} {j : Instr} (h : FitsFormat w j)
    (ha : mnemonic j = "APPLY" → (fField w).toNat ≤ 5)
    (hk : mnemonic j = "KSF" → aField w ≠ cField w) :
    ∃ i, decode w = .ok i ∧ mnemonic i = mnemonic j := by
  cases j with
  | apply =>
    obtain ⟨t, ht⟩ := Option.isSome_iff_exists.1 (tableSelOf_isSome _ (ha rfl))
    simp only [FitsFormat] at h
    simp [decode, decodeApply, mnemonic, h, ht]
  | ksf =>
    simp only [FitsFormat] at h
    simp [decode, decodeKsf, mnemonic, h, hk rfl]
  | ldi | rdReg | rds | setbit | perm | frnd | swap | ksr | ldc | ldp | ksrch | enc =>
    simp only [FitsFormat] at h
    simp [decode, whenZero, mnemonic, h]

/-- The row a mnemonic names, read off one command of each row. -/
def rowOfMnemonic (m : String) : Option OpcodeRow :=
  ([.ldi 0, .rdReg 0, .rds 0, .setbit 0 0 0 0, .apply 0 0 .ip, .perm 0 0 true, .ksf 0 0 0 0,
    .frnd 0 0 0, .swap 0 0, .ksr 0 0, .ldc 0 0, .ldp 0 0, .ksrch 0 0 0 0 0, .enc 0 0 0].find?
      (mnemonic · = m)).map opcodeRow

theorem rowOfMnemonic_mnemonic (i : Instr) : rowOfMnemonic (mnemonic i) = some (opcodeRow i) := by
  cases i <;> rfl

/-- A command and a row of its mnemonic are of one row. -/
theorem opcodeRow_eq_of_mnemonic_eq {i j : Instr} (h : mnemonic i = mnemonic j) :
    opcodeRow i = opcodeRow j := by
  have hi := rowOfMnemonic_mnemonic i
  rw [h, rowOfMnemonic_mnemonic j] at hi
  exact (Option.some.inj hi).symm

theorem toNat_fField_encode_le {i : Instr} (h : mnemonic i = "APPLY") :
    (fField (encode i)).toNat ≤ 5 := by
  cases i with
  | apply rd rs1 t => simpa [encode] using toNat_tableSelCode_le t
  | _ => simp [mnemonic] at h

theorem aField_encode_ne_cField {i : Instr} (hw : i.wellFormed = true) (h : mnemonic i = "KSF") :
    aField (encode i) ≠ cField (encode i) := by
  cases i with
  | ksf rd rd2 rs1 rnd =>
    have hd : rd ≠ rd2 := bne_iff_ne.1 hw
    simpa [encode] using hd
  | _ => simp [mnemonic] at h

/-- Settles O19: a word that decodes is the encoding of its command, which fits the command's format;
a word that fits the format is decoded by that row. -/
theorem decodeAgreesWithTheOpcodeMap : Obligations.DecodeAgreesWithTheOpcodeMap := by
  intro w j
  rw [opcodeRow_match_iff]
  constructor
  · rintro ⟨i, hdec, hm⟩
    obtain ⟨rfl, hw⟩ := isCode_of_decode hdec
    refine ⟨?_, fun ha => toNat_fField_encode_le (hm.trans ha),
      fun hk => aField_encode_ne_cField hw (hm.trans hk)⟩
    rw [← opcodeRow_match_iff, ← opcodeRow_eq_of_mnemonic_eq hm, opcodeRow_match_iff]
    exact encode_fitsFormat i
  · rintro ⟨hfit, ha, hk⟩
    exact decode_of_fitsFormat hfit ha hk

/-! ### The pseudo-instructions (30 R63) -/

/-- IP undoes FP: position `i` comes back through entry `IP[i]` of FP (40 R74). -/
theorem applyTable_romIP_romFP (v : Word) : applyTable romIP (applyTable romFP v) = v := by
  have hinv : ∀ i, i < 64 → i < romIP.length ∧ romIP.getD i 0 - 1 < romFP.length ∧
      romFP.getD (romIP.getD i 0 - 1) 0 - 1 = i := by decide
  refine word_ext fun i hi => ?_
  obtain ⟨hip, hfp, hback⟩ := hinv i hi
  rw [bit_applyTable romIP_inRange, bit_applyTable romFP_inRange, hback]
  simp only [hip, hfp, decide_true, Bool.true_and]

/-- On a running block `i` writes `f` of the state to register `d`, and nothing else. -/
def WritesReg (i : Instr) (d : Reg) (f : State → Word) : Prop :=
  ∀ s, Running s → exec i s = .next (s.writeX d (f s))

theorem ldi_writesReg (rd : Reg) : WritesReg (.ldi rd) rd State.readWdata :=
  fun _ hr => congrArg _ (State.gated_of_running hr _)

theorem apply_writesReg (rd rs1 : Reg) (tbl : TableSel) :
    WritesReg (.apply rd rs1 tbl) rd fun s => applyTable (tableOf tbl) (s.readX rs1) :=
  fun _ hr => congrArg _ (State.gated_of_running hr _)

theorem perm_writesReg (rd rs1 : Reg) (ui : Bool) :
    WritesReg (.perm rd rs1 ui) rd fun s => applyTable (blockTableOf ui) (s.readX rs1) :=
  fun _ hr => congrArg _ (State.gated_of_running hr _)

/-- The first move of a run, when it is the transaction of a command that writes one register. -/
theorem core_run_of_writesReg {i : Instr} {d : Reg} {f : State → Word} {v : Word}
    {rest : List HostMove} (hw : i.wellFormed = true) (hi : WritesReg i d f) (s : State)
    (hp : s.pending = .transaction (transactionOf i v) :: rest) (hr : Running s) (k : Nat) :
    core.run (k + 1) s = core.run k ((s.present v rest).writeX d (f (s.present v rest))) := by
  have hs : core.step s = .next ((s.present v rest).writeX d (f (s.present v rest))) :=
    calc step s
      _ = runCommand (encode i) (s.present v rest) := step_of_transaction hp
      _ = exec i (s.present v rest) := runCommand_of_legal (decode_encode hw) _
      _ = _ := hi (s.present v rest) hr
  simp [Host.Core.run, hs]

/-- An expansion to one command that writes one register changes no other register and no STATUS
field. -/
theorem core_run_one_of_writesReg {i : Instr} {d : Reg} {f : State → Word} (hw : i.wellFormed = true)
    (hi : WritesReg i d f) (s : State) (hp : s.pending = [.transaction (transactionOf i 0)])
    (hr : Running s) :
    ∃ t, core.run 1 s = .next t ∧ t.readX d = f (s.present 0 []) ∧
      (∀ r, r ≠ d → t.readX r = s.readX r) ∧ t.status = s.status :=
  ⟨_, core_run_of_writesReg hw hi s hp hr 0, State.readX_writeX_same .., fun _ hne =>
    State.readX_writeX_other _ _ hne, rfl⟩

/-- Settles O21: each move of an expansion is one register write; MOV's two cancel, as IP undoes FP. -/
theorem pseudoInstructionsExpand : Obligations.PseudoInstructionsExpand := by
  intro s rd rs1 hr
  refine ⟨⟨rfl, rfl, rfl, rfl⟩, core_run_one_of_writesReg rfl (ldi_writesReg rd) _ rfl hr,
    core_run_one_of_writesReg rfl (perm_writesReg rd rs1 true) _ rfl hr,
    core_run_one_of_writesReg rfl (perm_writesReg rd rs1 false) _ rfl hr, ?_⟩
  have hfp := core_run_of_writesReg rfl (apply_writesReg rd rs1 .fp)
    { s with pending := (expandPseudo (.mov rd rs1)).map .transaction } rfl hr 1
  obtain ⟨t, hip, hrd, hother, hstatus⟩ :=
    core_run_one_of_writesReg rfl (apply_writesReg rd rd .ip)
      ((s.present 0 [.transaction (transactionOf (.apply rd rd .ip) 0)]).writeX rd
        (applyTable romFP (s.readX rs1))) rfl hr
  refine ⟨t, hfp.trans hip, ?_, fun r hne => ?_, hstatus⟩
  · rw [hrd, State.readX_present, State.readX_writeX_same]
    exact applyTable_romIP_romFP _
  · exact (hother r hne).trans (State.readX_writeX_other _ _ hne)

/-! ### Illegal words (30 R60) and the worked encodings (30 R64) -/

/-- Settles O7: the decoder's refusal goes through the open fault gate to fault entry. -/
theorem illegalWordRecordsTheFaultAlone : Obligations.IllegalWordRecordsTheFaultAlone := by
  intro s w v rest e hrun hp hdec
  refine ⟨(s.present v rest).raise .illegalCommand, ?_, raise_onlyFault _ _⟩
  rw [step_of_transaction hp, runCommand_of_illegal hdec,
    State.gated_of_running (s := s.present v rest) hrun]

/-- Settles O20: the decoder run on each fixed word of the table. -/
theorem workedEncodingsDecode : Obligations.WorkedEncodingsDecode := by
  unfold Obligations.WorkedEncodingsDecode
  decide

end Sys2Proof.Machine

/-!
PROOFS of the bit permutation family (40_bit_permutation.md): the table function in closed form, the
block permutations, and SETBIT, alone and as the program that rebuilds APPLY.
-/

namespace Sys2Proof.Machine

/-! ### Commands that write one register -/

theorem setbit_writesReg (rd rs1 : Reg) (src dst : Pos) :
    WritesReg (.setbit rd rs1 src dst) rd fun s =>
      setBit (s.readX rd) (s.readX rs1) src.val dst.val :=
  fun _ hr => congrArg _ (State.gated_of_running hr _)

/-- What a command that writes one register does on a running block, and its frame. -/
theorem WritesReg.exec_eq_next {i : Instr} {d : Reg} {f : State → Word} (hi : WritesReg i d f)
    {s : State} (hr : Running s) :
    ∃ t, exec i s = .next t ∧ OnlyRegs [d] s t ∧ t.readX d = f s :=
  ⟨_, hi s hr, writeX_onlyRegs s d _, State.readX_writeX_same s d _⟩

theorem OnlyRegs.running {ds : List Reg} {s t : State} (h : OnlyRegs ds s t) (hr : Running s) :
    Running t :=
  (congrArg Status.fault h.status).trans hr

/-! ### The table function (40 R71) -/

section table
variable {T : PermTable} (hT : T.inRange = true)
include hT

theorem bit_applyTable_of_lt (v : Word) {i : Nat} (h : i < T.length) :
    bit (applyTable T v) i = bit v (T[i] - 1) := by
  rw [bit_applyTable hT, List.getD_eq_getElem _ _ h, decide_eq_true h, Bool.true_and]

theorem bit_applyTable_of_ge (v : Word) {i : Nat} (h : T.length ≤ i) :
    bit (applyTable T v) i = false := by
  rw [bit_applyTable hT, decide_eq_false (Nat.not_lt.2 h), Bool.false_and]

theorem applyTable_xor (a b : Word) :
    applyTable T (a ^^^ b) = applyTable T a ^^^ applyTable T b := by
  refine word_ext fun i _ => ?_
  simp only [bit_xor, bit_applyTable hT, Bool.and_xor_distrib_left]

theorem applyTable_zero : applyTable T 0 = 0 := by
  refine word_ext fun i _ => ?_
  rw [bit_applyTable hT]
  simp

end table

/-- Settles O29: the closed form and linearity of a table in range, as every table of the ROM is. -/
theorem applyTableMovesPositionsAndIsLinear : Obligations.ApplyTableMovesPositionsAndIsLinear := by
  intro tbl a b
  have hT := tableOf_inRange tbl
  exact ⟨fun _ h => bit_applyTable_of_lt hT a h, fun _ h => bit_applyTable_of_ge hT a h,
    applyTable_xor hT a b, applyTable_zero hT⟩

/-! ### APPLY and PERM (40 R72, R73) -/

/-- Settles O26: APPLY writes its table of the source to one register; the table's closed form. -/
theorem applyMovesPositionsByTheTable : Obligations.ApplyMovesPositionsByTheTable := by
  intro s rd rs1 tbl hr
  have hT := tableOf_inRange tbl
  obtain ⟨t, hexec, hframe, hrd⟩ := (apply_writesReg rd rs1 tbl).exec_eq_next hr
  refine ⟨t, hexec, hframe, fun i h => ?_, fun i h => ?_⟩
  · rw [hrd, bit_applyTable_of_lt hT _ h]
  · rw [hrd, bit_applyTable_of_ge hT _ h]

theorem length_blockTableOf (ui : Bool) : (blockTableOf ui).length = 64 := by
  cases ui <;> rfl

/-- Settles O27: PERM writes its block permutation of the source to one register, and both block
tables have an entry for each of the 64 positions. -/
theorem permIsTheBlockPermutation : Obligations.PermIsTheBlockPermutation := by
  intro s rd rs1 ui hr
  obtain ⟨t, hexec, hframe, hrd⟩ := (perm_writesReg rd rs1 ui).exec_eq_next hr
  refine ⟨⟨t, hexec, hframe, fun i hi => ?_⟩, rfl, rfl⟩
  have hentry : (if ui then romIP.getD i 0 else romFP.getD i 0) = (blockTableOf ui).getD i 0 := by
    cases ui <;> rfl
  rw [hrd, bit_applyTable (blockTableOf_inRange ui), length_blockTableOf, decide_eq_true hi,
    Bool.true_and, hentry]

/-! ### IP and FP (40 R74) -/

/-- FP undoes IP: IP undoes FP, and a one-sided inverse on a finite set is two-sided. -/
theorem applyTable_romFP_romIP (v : Word) : applyTable romFP (applyTable romIP v) = v := by
  have hleft : Function.LeftInverse (applyTable romIP) (applyTable romFP) := applyTable_romIP_romFP
  have hsurj : Function.Surjective (applyTable romFP) :=
    Finite.surjective_of_injective hleft.injective
  exact hleft.rightInverse_of_surjective hsurj v

/-- IP moves position 63 to position 24. -/
theorem applyTable_romIP_one_ne : applyTable romIP 1 ≠ 1 := by decide

/-- Settles O28: were either table idempotent at 1, its inverse would make 1 a fixed point of IP,
which it is not. -/
theorem ipAndFpAreMutualInverses : Obligations.IpAndFpAreMutualInverses := by
  refine ⟨fun v => ⟨applyTable_romIP_romFP v, applyTable_romFP_romIP v⟩, ⟨1, fun h => ?_⟩,
    ⟨1, fun h => ?_⟩⟩
  · have hfix := congrArg (applyTable romFP) h
    rw [applyTable_romFP_romIP, applyTable_romFP_romIP] at hfix
    exact applyTable_romIP_one_ne hfix
  · have hfix := congrArg (applyTable romIP) h
    rw [applyTable_romIP_romFP, applyTable_romIP_romFP] at hfix
    exact applyTable_romIP_one_ne ((congrArg _ hfix.symm).trans (applyTable_romIP_romFP 1))

/-! ### SETBIT (40 R70) -/

/-- Settles O25: SETBIT writes `setBit` of its two registers to one, which ORs one position. -/
theorem setbitOrsOnePosition : Obligations.SetbitOrsOnePosition := by
  intro s rd rs1 src dst hr
  obtain ⟨t, hexec, hframe, hrd⟩ := (setbit_writesReg rd rs1 src dst).exec_eq_next hr
  refine ⟨t, hexec, hframe, ?_, fun j hj => ?_⟩
  · rw [hrd, bit_setBit _ _ src.isLt dst.isLt, decide_eq_true rfl, Bool.true_and]
  · rw [hrd, bit_setBit _ _ src.isLt dst.isLt, decide_eq_false hj, Bool.false_and, Bool.or_false]

/-! ### SETBIT programs (40 R75, 70 R152) -/

/-- The SETBIT command of one move, a source and a destination position. -/
def setbitOf (rd rs1 : Reg) (m : Pos × Pos) : Instr := .setbit rd rs1 m.1 m.2

/-- SETBITs from another register leave in the buffer its old positions and, ORed in, the moved
positions of the source. -/
theorem execAll_setbits {rd rs1 : Reg} (hne : rd ≠ rs1) (ms : List (Pos × Pos)) {s : State}
    (hr : Running s) :
    ∃ t, execAll (ms.map (setbitOf rd rs1)) s = .next t ∧ OnlyRegs [rd] s t ∧
      ∀ j, bit (t.readX rd) j = true ↔ bit (s.readX rd) j = true ∨
        ∃ m ∈ ms, j = m.2.val ∧ bit (s.readX rs1) m.1.val = true := by
  induction ms generalizing s with
  | nil => exact ⟨s, rfl, onlyRegs_refl _ s, by simp⟩
  | cons m ms ih =>
    obtain ⟨u, hu, hsu, hrd⟩ := (setbit_writesReg rd rs1 m.1 m.2).exec_eq_next hr
    have hur : Running u := hsu.running hr
    have hsrc : u.readX rs1 = s.readX rs1 := hsu.regs rs1 (by simpa using hne.symm)
    obtain ⟨t, ht, hut, hbits⟩ := ih hur
    refine ⟨t, ?_, hsu.trans hut, fun j => ?_⟩
    · simpa only [List.map_cons, execAll, setbitOf, hu] using ht
    · rw [hbits, hrd, hsrc, bit_setBit _ _ m.1.isLt m.2.isLt]
      simp only [Bool.or_eq_true, Bool.and_eq_true, decide_eq_true_eq, or_assoc,
        List.exists_mem_cons_iff]

/-- SETBITs of distinct destinations, none targeted before, meet the single-write contract on a
buffer that is zero or already in use. -/
theorem setbitContract_setbits {rd rs1 : Reg} {ms : List (Pos × Pos)} {targets : List (Reg × Pos)}
    {s : State} (hr : Running s) (hdistinct : (ms.map Prod.snd).Nodup)
    (hnew : ∀ m ∈ ms, (rd, m.2) ∉ targets)
    (hbuffer : targets.any (fun t => t.1 == rd) = true ∨ s.readX rd = 0) :
    setbitContract targets (ms.map (setbitOf rd rs1)) s = true := by
  induction ms generalizing targets s with
  | nil => rfl
  | cons m ms ih =>
    rw [List.map_cons, List.nodup_cons] at hdistinct
    obtain ⟨hm, hms⟩ := hdistinct
    obtain ⟨u, hu, hsu, -⟩ := (setbit_writesReg rd rs1 m.1 m.2).exec_eq_next hr
    have hur : Running u := hsu.running hr
    have hallowed : setbitAllowed targets s (setbitOf rd rs1 m) = true := by
      simpa [setbitAllowed, setbitOf] using And.intro (hnew m (List.mem_cons_self ..)) hbuffer
    have hrest : setbitContract ((rd, m.2) :: targets) (ms.map (setbitOf rd rs1)) u = true := by
      refine ih hur hms (fun p hp hmem => ?_) (.inl (by simp))
      obtain heq | hold := List.mem_cons.1 hmem
      · exact hm (List.mem_map.2 ⟨p, hp, (Prod.mk.inj heq).2⟩)
      · exact hnew p (List.mem_cons_of_mem _ hp) hold
    rw [List.map_cons, setbitContract, hallowed, Bool.true_and]
    simpa only [setbitOf, hu, nextTargets] using hrest

/-- The moves of a table, `T[i] - 1` to `i`, in table order. -/
def tableMoves (T : PermTable) : List (Pos × Pos) :=
  (List.range T.length).map fun i => (Fin.ofNat 64 (T.getD i 0 - 1), Fin.ofNat 64 i)

theorem map_setbitOf_tableMoves (rd rs1 : Reg) (T : PermTable) :
    (tableMoves T).map (setbitOf rd rs1) = (List.range T.length).map fun i =>
      .setbit rd rs1 (Fin.ofNat 64 (T.getD i 0 - 1)) (Fin.ofNat 64 i) :=
  List.map_map

theorem nodup_tableMoves_snd {T : PermTable} (h : T.length ≤ 64) :
    ((tableMoves T).map Prod.snd).Nodup := by
  rw [tableMoves, List.map_map]
  refine List.nodup_range.map_on fun i hi j hj hij => ?_
  have hmod : i % 64 = j % 64 := congrArg Fin.val hij
  rw [List.mem_range] at hi hj
  omega

/-- The table's moves of `v` are the positions set in its table. -/
theorem bit_applyTable_iff_tableMoves {T : PermTable} (hT : T.inRange = true) (v : Word) (j : Nat) :
    bit (applyTable T v) j = true ↔
      ∃ m ∈ tableMoves T, j = m.2.val ∧ bit v m.1.val = true := by
  obtain ⟨hl, he⟩ := PermTable.inRange_entries hT
  have hval : ∀ i, i < T.length → i % 64 = i ∧ (T.getD i 0 - 1) % 64 = T.getD i 0 - 1 := by
    intro i hi
    have := he _ (List.getElem_mem hi)
    rw [List.getD_eq_getElem _ _ hi]
    omega
  rw [bit_applyTable hT]
  simp only [Bool.and_eq_true, decide_eq_true_eq, tableMoves, List.mem_map, List.mem_range,
    exists_exists_and_eq_and, Fin.val_ofNat]
  constructor
  · rintro ⟨hj, hbit⟩
    obtain ⟨hdst, hsrc⟩ := hval j hj
    exact ⟨j, hj, hdst.symm, by rwa [hsrc]⟩
  · rintro ⟨i, hi, hdst, hbit⟩
    obtain ⟨hdst', hsrc⟩ := hval i hi
    obtain rfl : j = i := hdst.trans hdst'
    exact ⟨hi, by rwa [hsrc] at hbit⟩

/-- Settles O30: the list is SETBITs of the table's moves in some order; neither the distinctness of
their destinations nor the positions they set depend on the order. -/
theorem setbitsInAnyOrderRebuildApply : Obligations.SetbitsInAnyOrderRebuildApply := by
  intro s rd rs1 tbl is hr hne hzero hperm
  have hT := tableOf_inRange tbl
  rw [← map_setbitOf_tableMoves] at hperm
  obtain ⟨ms, rfl, hms⟩ : Relation.Comp (· = List.map (setbitOf rd rs1) ·) (·.Perm ·) is
      (tableMoves (tableOf tbl)) := by
    rwa [List.eq_map_comp_perm]
  have hdistinct : (ms.map Prod.snd).Nodup :=
    (hms.map _).nodup_iff.2 (nodup_tableMoves_snd (PermTable.inRange_entries hT).1)
  obtain ⟨t, ht, hframe, hbits⟩ := execAll_setbits hne ms hr
  refine ⟨setbitContract_setbits hr hdistinct (by simp) (.inr hzero), t, ht, hframe, ?_⟩
  refine word_ext fun j _ => Bool.eq_iff_iff.2 ?_
  rw [hbits, hzero, bit_applyTable_iff_tableMoves hT]
  simp [hms.mem_iff]

end Sys2Proof.Machine

/-!
PROOFS of the forward key schedule family (41_key_schedule_forward.md): KSF, the half rotation in
numbers, and the states threaded through the sixteen rounds.
-/

namespace Sys2Proof.Machine

/-! ### KSF (41 R81) -/

theorem exec_ksf_of_ne {s : State} {rd rd2 : Reg} (rs1 : Reg) (rnd : RoundIx) (hr : Running s)
    (hne : rd ≠ rd2) : exec (.ksf rd rd2 rs1 rnd) s = .next (ksfEffect rd rd2 rs1 rnd s) :=
  (congrArg Host.Outcome.next (State.gated_of_running hr _)).trans (congrArg _ (if_neg hne))

theorem exec_ksf_same {s : State} (rd rs1 : Reg) (rnd : RoundIx) (hr : Running s) :
    exec (.ksf rd rd rs1 rnd) s = .next (s.raise .illegalCommand) :=
  (congrArg Host.Outcome.next (State.gated_of_running hr _)).trans (congrArg _ (if_pos rfl))

theorem ksfEffect_onlyRegs (rd rd2 rs1 : Reg) (rnd : RoundIx) (s : State) :
    OnlyRegs [rd, rd2] s (ksfEffect rd rd2 rs1 rnd s) :=
  ((writeX_onlyRegs s rd2 _).mono (by simp)).trans ((writeX_onlyRegs _ rd _).mono (by simp))

theorem readX_ksfEffect_rd (rd rd2 rs1 : Reg) (rnd : RoundIx) (s : State) :
    (ksfEffect rd rd2 rs1 rnd s).readX rd = (keyStep rnd.val (s.readX rs1)).1 :=
  State.readX_writeX_same ..

theorem readX_ksfEffect_rd2 {rd rd2 : Reg} (rs1 : Reg) (rnd : RoundIx) (s : State)
    (hne : rd ≠ rd2) :
    (ksfEffect rd rd2 rs1 rnd s).readX rd2 = (keyStep rnd.val (s.readX rs1)).2 :=
  (State.readX_writeX_other _ _ hne.symm).trans (State.readX_writeX_same ..)

/-- The round key is PC2 of the next state (41 R80). -/
theorem keyStep_fst (n : Nat) (v : Word) :
    (keyStep n v).1 = applyTable romPC2 (keyStep n v).2 := rfl

/-- The next state is the schedule state with both halves rotated (41 R80). -/
theorem keyStep_snd (n : Nat) (v : Word) :
    (keyStep n v).2 = rotateHalves (rotAmount n) (stepState n v) := rfl

/-- Settles O31: KSF writes the two results of `KeyStep`, the rotated state and PC2 of it, whose
positions are those of the rotation and of a table. -/
theorem ksfStepsTheSchedule : Obligations.KsfStepsTheSchedule := by
  intro s rd rd2 rs1 rnd hr hne
  refine ⟨_, exec_ksf_of_ne rs1 rnd hr hne, ksfEffect_onlyRegs rd rd2 rs1 rnd s, ?_⟩
  rw [readX_ksfEffect_rd, readX_ksfEffect_rd2 rs1 rnd s hne, keyStep_fst, keyStep_snd]
  refine ⟨fun j hj => ⟨?_, ?_⟩, fun j hj => ?_, fun i hi => ?_, fun i hi => ?_⟩
  · rw [bit_rotateHalves, if_pos hj, stepState]
  · rw [bit_rotateHalves, if_neg (by omega), if_pos (by omega), Nat.add_sub_cancel_left, stepState]
  · rw [bit_rotateHalves, if_neg (by omega), if_neg (by omega)]
  · rw [bit_applyTable_of_lt romPC2_inRange _ hi, List.getD_eq_getElem _ _ hi]
  · exact bit_applyTable_of_ge romPC2_inRange _ hi

/-- Settles O32: past the open fault gate one destination leads to fault entry. -/
theorem ksfWithOneDestinationIsIllegal : Obligations.KsfWithOneDestinationIsIllegal :=
  fun s rd rs1 rnd hr => ⟨_, exec_ksf_same rd rs1 rnd hr, raise_onlyFault s _⟩

/-! ### The next state in numbers (41 R80) -/

/-- Weight `2^k` of a container is its position `63 - k` (00 R5). -/
theorem testBit_toNat_eq_bit (v : Word) {k : Nat} (h : k < 64) :
    v.toNat.testBit k = bit v (63 - k) := by
  rw [BitVec.testBit_toNat, BitVec.getLsbD_eq_getMsbD, decide_eq_true h, Bool.true_and]
  rfl

/-- Weight `2^k` of a field is its position `n - 1 - k` (00 R5). -/
theorem testBit_field (v : Word) {i n : Nat} (h : i + n ≤ 64) (k : Nat) :
    (field v i n).testBit k = (decide (k < n) && bit v (i + (n - 1 - k))) := by
  rw [field, Nat.testBit_mod_two_pow, Nat.testBit_shiftRight]
  by_cases hk : k < n
  · rw [testBit_toNat_eq_bit v (by omega), show 63 - (64 - i - n + k) = i + (n - 1 - k) by omega]
  · simp [hk]

/-- A 28-bit number rotated left by `r` (41 R80). -/
def rotateNum (r x : Nat) : Nat := ((x <<< r) ||| (x >>> (28 - r))) &&& 0xFFFFFFF

/-- Rotating a half as a number moves its position `(j + r) % 28` to `j`. -/
theorem testBit_rotateNum_field (v : Word) {i r : Nat} (hi : i + 28 ≤ 64) (hr : r ≤ 28) (k : Nat) :
    (rotateNum r (field v i 28)).testBit k =
      (decide (k < 28) && bit v (i + (27 - k + r) % 28)) := by
  have hmask : 0xFFFFFFF = 2 ^ 28 - 1 := rfl
  rw [rotateNum, hmask, Nat.and_two_pow_sub_one_eq_mod, Nat.testBit_mod_two_pow, Nat.testBit_or,
    Nat.testBit_shiftLeft, Nat.testBit_shiftRight, testBit_field v hi, testBit_field v hi]
  by_cases hk : k < 28
  · by_cases hkr : r ≤ k
    · have hpos : (27 - k + r) % 28 = 27 - (k - r) := by omega
      simp [hk, hkr, hpos, show k - r < 28 by omega, show ¬28 - r + k < 28 by omega]
    · have hpos : (27 - k + r) % 28 = 27 - (28 - r + k) := by omega
      simp [hk, hkr, hpos, show 28 - r + k < 28 by omega]
  · simp [hk]

/-- The rotation of both halves in numbers. -/
theorem toNat_rotateHalves (v : Word) {r : Nat} (hr : r ≤ 28) :
    (rotateHalves r v).toNat =
      rotateNum r (field v 0 28) <<< 36 ||| rotateNum r (field v 28 28) <<< 8 := by
  refine Nat.eq_of_testBit_eq fun k => ?_
  rw [Nat.testBit_or, Nat.testBit_shiftLeft, Nat.testBit_shiftLeft,
    testBit_rotateNum_field v (by omega) hr, testBit_rotateNum_field v (by omega) hr]
  by_cases hk : k < 64
  · rw [testBit_toNat_eq_bit _ hk, bit_rotateHalves]
    by_cases hleft : 36 ≤ k
    · have hpos : 27 - (k - 36) = 63 - k := by omega
      simp [hleft, hpos, show 63 - k < 28 by omega, show k - 36 < 28 by omega,
        show ¬k - 8 < 28 by omega]
    · by_cases hright : 8 ≤ k
      · have hpos : 27 - (k - 8) = 63 - k - 28 := by omega
        simp [hleft, hright, hpos, show ¬63 - k < 28 by omega, show 63 - k < 56 by omega,
          show k - 8 < 28 by omega]
      · simp [hleft, hright, show ¬63 - k < 28 by omega, show ¬63 - k < 56 by omega]
  · have hzero : (rotateHalves r v).toNat.testBit k = false :=
      BitVec.testBit_toNat _ ▸ BitVec.getLsbD_of_ge _ _ (Nat.not_lt.1 hk)
    simp [hzero, show ¬k - 36 < 28 by omega, show ¬k - 8 < 28 by omega]

theorem rotAmount_le (n : RoundIx) : rotAmount n.val ≤ 28 := by
  revert n
  decide

/-- Settles O33: the rotation of both halves in numbers, by an amount that is at most 28. -/
theorem keyStepRotatesTheHalvesAsNumbers : Obligations.KeyStepRotatesTheHalvesAsNumbers :=
  fun n v => toNat_rotateHalves (stepState n.val v) (rotAmount_le n)

/-! ### The threaded states (41 R82) -/

/-- Rotations add up. -/
theorem rotateHalves_rotateHalves (a b : Nat) (v : Word) :
    rotateHalves a (rotateHalves b v) = rotateHalves (b + a) v := by
  refine word_ext fun j _ => ?_
  have hlt : ∀ m, m % 28 < 28 := fun m => Nat.mod_lt m (by decide)
  have hadd : ∀ m, ((m + a) % 28 + b) % 28 = (m + (b + a)) % 28 := fun m => by omega
  rw [bit_rotateHalves, bit_rotateHalves, bit_rotateHalves, bit_rotateHalves]
  by_cases hleft : j < 28
  · simp only [hleft, if_true, hlt, hadd]
  · have hright := hlt (j - 28 + a)
    simp only [hleft, if_false, Nat.not_lt.2 (Nat.le_add_right 28 _),
      show 28 + (j - 28 + a) % 28 < 56 by omega, if_true, Nat.add_sub_cancel_left, hadd]

/-- Whole turns change nothing in a schedule state, which is 0 from position 56 on. -/
theorem rotateHalves_of_dvd {r : Nat} (hr : 28 ∣ r) {v : Word}
    (hv : ∀ j, 56 ≤ j → bit v j = false) : rotateHalves r v = v := by
  refine word_ext fun j _ => ?_
  rw [bit_rotateHalves]
  by_cases hleft : j < 28
  · rw [if_pos hleft, show (j + r) % 28 = j by omega]
  · by_cases hright : j < 56
    · rw [if_neg hleft, if_pos hright, show 28 + (j - 28 + r) % 28 = j by omega]
    · rw [if_neg hleft, if_neg hright, hv j (Nat.not_lt.1 hright)]

/-- PC1 gives a schedule state: its 56 entries fill the two halves. -/
theorem rotateHalves_romPC1 {r : Nat} (hr : 28 ∣ r) (K : Word) :
    rotateHalves r (applyTable romPC1 K) = applyTable romPC1 K :=
  rotateHalves_of_dvd hr fun _ h => bit_applyTable_of_ge romPC1_inRange K h

/-- `st[n]`, the operand of `KeyStep` in round `n` of the schedule of `K` (41 R82). -/
def threadedState (K : Word) : Nat → Word
  | 0 => K
  | n + 1 => (keyStep n (threadedState K n)).2

/-- The subkeys of consecutive rounds from `n` on are the round keys of the threaded states. -/
theorem subkeysFrom_range' (K : Word) (n len : Nat) :
    subkeysFrom (List.range' n len) (threadedState K n) =
      (List.range' n len).map fun m => (keyStep m (threadedState K m)).1 := by
  induction len generalizing n with
  | zero => rfl
  | succ len ih =>
    rw [List.range'_succ, subkeysFrom, List.map_cons]
    exact congrArg _ (ih (n + 1))

theorem subkeys_eq_map (K : Word) :
    subkeys K = (List.range 16).map fun n => (keyStep n (threadedState K n)).1 := by
  rw [subkeys, List.range_eq_range']
  exact subkeysFrom_range' K 0 16

/-- The state round `n` rotates is PC1 of the key, rotated by all the amounts before. -/
theorem stepState_threadedState (K : Word) (n : Nat) :
    stepState n (threadedState K n) =
      rotateHalves (∑ m ∈ Finset.range n, rotAmount m) (applyTable romPC1 K) := by
  induction n with
  | zero => exact (rotateHalves_romPC1 (dvd_zero 28) K).symm
  | succ n ih =>
    calc stepState (n + 1) (threadedState K (n + 1))
      _ = rotateHalves (rotAmount n) (stepState n (threadedState K n)) := rfl
      _ = _ := by rw [ih, rotateHalves_rotateHalves, Finset.sum_range_succ]

/-- The sixteen rotations are one whole turn (41 R82). -/
theorem sum_rotAmount : ∑ m ∈ Finset.range 16, rotAmount m = 28 := rfl

theorem threadedState_sixteen (K : Word) : threadedState K 16 = applyTable romPC1 K :=
  calc threadedState K 16
    _ = stepState 16 (threadedState K 16) := rfl
    _ = rotateHalves 28 (applyTable romPC1 K) := by rw [stepState_threadedState, sum_rotAmount]
    _ = applyTable romPC1 K := rotateHalves_romPC1 (dvd_refl 28) K

/-- Settles O34: the subkeys are the round keys of the threaded states, and sixteen rounds rotate
PC1 of the key by one whole turn. -/
theorem subkeysThreadTheScheduleState : Obligations.SubkeysThreadTheScheduleState := by
  intro K
  refine ⟨by simp [subkeys_eq_map], threadedState K, rfl, fun n hn => ⟨rfl, ?_⟩,
    threadedState_sixteen K⟩
  simp [subkeys_eq_map, hn]

end Sys2Proof.Machine

/-!
PROOFS of the Feistel round family (42_feistel_round.md): fields of a container, `Substitute` in closed
form, the positions `F` reads, the round's two halves, FRND and SWAP.
-/

namespace Sys2Proof.Machine

/-! ### Fields as numbers (00 R5) -/

/-- Fields of one width are equal when their positions are. -/
theorem field_congr {v w : Word} {i j n : Nat} (hi : i + n ≤ 64) (hj : j + n ≤ 64)
    (h : ∀ m, m < n → bit v (i + m) = bit w (j + m)) : field v i n = field w j n := by
  refine Nat.eq_of_testBit_eq fun k => ?_
  rw [testBit_field v hi, testBit_field w hj]
  by_cases hk : k < n
  · rw [h (n - 1 - k) (by omega)]
  · simp [hk]

theorem field_xor (v w : Word) (i n : Nat) : field (v ^^^ w) i n = field v i n ^^^ field w i n := by
  simp only [field, BitVec.toNat_xor, Nat.shiftRight_xor_distrib, Nat.xor_mod_two_pow]

theorem field_lt (v : Word) (i n : Nat) : field v i n < 2 ^ n := Nat.mod_lt _ (Nat.two_pow_pos n)

/-- A field of a field: dropping its last `k` positions and keeping the `m` before them. -/
theorem field_shiftRight_mod (v : Word) {i n j m k : Nat} (h : i + n ≤ 64) (hij : i ≤ j)
    (hend : j + m + k = i + n) : (field v i n >>> k) % 2 ^ m = field v j m := by
  refine Nat.eq_of_testBit_eq fun b => ?_
  rw [Nat.testBit_mod_two_pow, Nat.testBit_shiftRight, testBit_field v h, testBit_field v (by omega)]
  by_cases hb : b < m
  · rw [decide_eq_true (show k + b < n by omega), Bool.true_and,
      show i + (n - 1 - (k + b)) = j + (m - 1 - b) by omega]
  · simp [hb]

theorem bitNat_eq_field (v : Word) {i : Nat} (h : i < 64) : bitNat v i = field v i 1 := by
  have hpos : 63 - (63 - i) = i := by omega
  rw [field, Nat.shiftRight_eq_div_pow, pow_one, Nat.sub_right_comm, ← Nat.toNat_testBit,
    testBit_toNat_eq_bit v (by omega), hpos, bitNat]

/-! ### Substitute (42 R90) -/

/-- The row and the column of an S-box lookup as numbers of the 6-bit group. -/
theorem sboxNibble_eq (w : Word) {g : Nat} (hg : g < 8) :
    sboxNibble w g = sboxEntry g (2 * (field w (6 * g) 6 >>> 5) + field w (6 * g) 6 % 2)
      ((field w (6 * g) 6 >>> 1) % 16) := by
  have hsix : 6 * g + 6 ≤ 64 := by omega
  have hfirst : field w (6 * g) 6 >>> 5 = bitNat w (6 * g) := by
    have hlt : field w (6 * g) 6 >>> 5 < 2 ^ 1 := by
      have := field_lt w (6 * g) 6
      omega
    rw [bitNat_eq_field w (by omega), ← field_shiftRight_mod w hsix le_rfl (m := 1) (k := 5) rfl,
      Nat.mod_eq_of_lt hlt]
  have hlast : field w (6 * g) 6 % 2 = bitNat w (6 * g + 5) := by
    rw [bitNat_eq_field w (by omega)]
    exact field_shiftRight_mod w hsix (by omega) (m := 1) (k := 0) rfl
  have hmiddle : (field w (6 * g) 6 >>> 1) % 16 = field w (6 * g + 1) 4 :=
    field_shiftRight_mod w hsix (by omega) (m := 4) rfl
  rw [sboxNibble, hfirst, hlast, hmiddle]

theorem sboxEntry_lt : ∀ (g : Fin 8) (row : Fin 4) (col : Fin 16), sboxEntry g row col < 2 ^ 4 := by
  decide

/-- An S-box output is a nibble. -/
theorem sboxNibble_lt (w : Word) {g : Nat} (hg : g < 8) : sboxNibble w g < 2 ^ 4 := by
  have hfirst : bitNat w (6 * g) ≤ 1 := Bool.toNat_le _
  have hlast : bitNat w (6 * g + 5) ≤ 1 := Bool.toNat_le _
  exact sboxEntry_lt ⟨g, hg⟩ ⟨2 * bitNat w (6 * g) + bitNat w (6 * g + 5), by omega⟩
    ⟨field w (6 * g + 1) 4, field_lt ..⟩

theorem testBit_nibble_of_ge {x : Nat} (hx : x < 2 ^ 4) {k : Nat} (hk : 4 ≤ k) :
    x.testBit k = false :=
  Nat.testBit_lt_two_pow (hx.trans_le (Nat.pow_le_pow_right (by decide) hk))

/-- A number as a container: position `i` has weight `2^(63 - i)` (00 R5). -/
theorem bit_ofNat (x : Nat) {i : Nat} (hi : i < 64) :
    bit (BitVec.ofNat 64 x) i = x.testBit (63 - i) := by
  rw [bit, BitVec.getMsbD_eq_getLsbD, BitVec.getLsbD_ofNat, decide_eq_true hi, Bool.true_and,
    decide_eq_true (show 64 - 1 - i < 64 by omega), Bool.true_and]

/-- A nibble put at its place fills positions `4g .. 4g+3` and no other. -/
theorem bit_nibble_shiftLeft {x : Nat} (hx : x < 2 ^ 4) {g : Nat} (hg : g < 8) (j : Nat) :
    bit (BitVec.ofNat 64 x <<< (60 - 4 * g)) j =
      (decide (4 * g ≤ j ∧ j < 4 * g + 4) && x.testBit (4 * g + 3 - j)) := by
  rw [bit_shiftLeft]
  by_cases hlow : j < 4 * g
  · rw [bit_ofNat x (by omega), testBit_nibble_of_ge hx (by omega)]
    simp [Nat.not_le.2 hlow]
  · by_cases hhigh : j < 4 * g + 4
    · rw [bit_ofNat x (by omega), show 63 - (j + (60 - 4 * g)) = 4 * g + 3 - j by omega]
      simp [hhigh, Nat.not_lt.1 hlow, show j < 64 by omega]
    · rw [bit_of_ge _ (by omega)]
      simp [hhigh]

/-- The substitution loop up to group `n`: the nibbles written so far, 0 elsewhere. -/
theorem bit_substituteLoop (w : Word) (n : Nat) (hn : n ≤ 8) (j : Nat) :
    bit ((List.range n).foldl
        (fun out g => out ||| (BitVec.ofNat 64 (sboxNibble w g) <<< (60 - 4 * g))) 0) j =
      (decide (j < 4 * n) && (sboxNibble w (j / 4)).testBit (3 - j % 4)) := by
  induction n with
  | zero => simp
  | succ n ih =>
    rw [List.range_succ, List.foldl_append, List.foldl_cons, List.foldl_nil, bit_or, ih (by omega),
      bit_nibble_shiftLeft (sboxNibble_lt w (by omega)) (by omega)]
    by_cases hbelow : j < 4 * n
    · simp [hbelow, Nat.not_le.2 hbelow, show j < 4 * (n + 1) by omega]
    · by_cases hin : j < 4 * n + 4
      · rw [show j / 4 = n by omega, show 3 - j % 4 = 4 * n + 3 - j by omega]
        simp [hbelow, hin, Nat.not_lt.1 hbelow, show j < 4 * (n + 1) by omega]
      · simp [hbelow, hin, show ¬j < 4 * (n + 1) by omega]

/-- `Substitute` in closed form. -/
theorem bit_substitute (w : Word) (j : Nat) :
    bit (substitute w) j = (decide (j < 32) && (sboxNibble w (j / 4)).testBit (3 - j % 4)) :=
  bit_substituteLoop w 8 le_rfl j

theorem field_substitute (w : Word) {g : Nat} (hg : g < 8) :
    field (substitute w) (4 * g) 4 = sboxNibble w g := by
  refine Nat.eq_of_testBit_eq fun k => ?_
  rw [testBit_field _ (by omega), bit_substitute]
  by_cases hk : k < 4
  · rw [show (4 * g + (4 - 1 - k)) / 4 = g by omega, show 3 - (4 * g + (4 - 1 - k)) % 4 = k by omega]
    simp [hk, show 4 * g + (3 - k) < 32 by omega]
  · rw [testBit_nibble_of_ge (sboxNibble_lt w hg) (Nat.not_lt.1 hk)]
    simp [hk]

/-- Settles O38: nibble `g` is the S-box output of group `g`, whose row and column are numbers of the
group; the closed form ends at position 32. -/
theorem substituteLooksUpEachGroup : Obligations.SubstituteLooksUpEachGroup := by
  refine fun w => ⟨fun g hg => (field_substitute w hg).trans (sboxNibble_eq w hg), fun i hi => ?_⟩
  rw [bit_substitute, decide_eq_false (Nat.not_lt.2 hi), Bool.false_and]

/-! ### The round function (42 R91) -/

/-- A table reads the positions its entries name and no other. -/
theorem applyTable_congr {T : PermTable} (hT : T.inRange = true) {v w : Word}
    (h : ∀ t ∈ T, bit v (t - 1) = bit w (t - 1)) : applyTable T v = applyTable T w := by
  refine word_ext fun i _ => ?_
  by_cases hi : i < T.length
  · rw [bit_applyTable_of_lt hT v hi, bit_applyTable_of_lt hT w hi, h _ (List.getElem_mem hi)]
  · rw [bit_applyTable_of_ge hT v (Nat.not_lt.1 hi), bit_applyTable_of_ge hT w (Nat.not_lt.1 hi)]

/-- E reads the right half only. -/
theorem applyTable_romE_congr {d d' : Word} (h : ∀ i, 32 ≤ i → i < 64 → bit d i = bit d' i) :
    applyTable romE d = applyTable romE d' := by
  have hright : ∀ t ∈ romE, 32 ≤ t - 1 ∧ t - 1 < 64 := by decide
  exact applyTable_congr romE_inRange fun t ht => h _ (hright t ht).1 (hright t ht).2

/-- The mask of the key mixing keeps positions 0..47. -/
theorem roundKeyMask_congr {k k' : Word} (h : ∀ i, i < 48 → bit k i = bit k' i) :
    k &&& 0xFFFFFFFFFFFF0000 = k' &&& 0xFFFFFFFFFFFF0000 := by
  have hmask : ∀ i, i < 64 → bit 0xFFFFFFFFFFFF0000 i = decide (i < 48) := by decide
  refine word_ext fun i hi => ?_
  rw [bit_and, bit_and, hmask i hi]
  by_cases h48 : i < 48
  · rw [h i h48]
  · simp [h48]

theorem feistelF_congr {d d' k k' : Word} (hd : ∀ i, 32 ≤ i → i < 64 → bit d i = bit d' i)
    (hk : ∀ i, i < 48 → bit k i = bit k' i) : feistelF d k = feistelF d' k' := by
  rw [feistelF, applyTable_romE_congr hd, roundKeyMask_congr hk, feistelF]

/-- Settles O39: the expansion reads the right half, the mask leaves 48 key positions, and P has 32
entries. -/
theorem feistelFunctionReadsItsOperandsOnly : Obligations.FeistelFunctionReadsItsOperandsOnly :=
  fun _ _ _ _ hd hk =>
    ⟨feistelF_congr hd hk, fun _ hi => bit_applyTable_of_ge romP_inRange _ hi⟩

/-! ### The round by halves (42 R92, R93) -/

theorem field_feistelRound_left (d k : Word) : field (feistelRound d k) 0 32 = field d 32 32 := by
  refine field_congr (by decide) (by decide) fun m hm => ?_
  rw [bit_feistelRound d k (by omega), if_pos (by omega), Nat.zero_add, Nat.add_comm]

theorem field_feistelRound_right (d k : Word) :
    field (feistelRound d k) 32 32 = field (feistelF d k) 0 32 ^^^ field d 0 32 := by
  rw [← field_xor]
  refine field_congr (by decide) (by decide) fun m hm => ?_
  rw [bit_feistelRound d k (by omega), if_neg (by omega), Nat.add_sub_cancel_left, Nat.zero_add,
    bit_xor]

/-- The left half of a round's result, put back in the right half, gives `F` what it read. -/
theorem feistelF_feistelRound_shiftRight (d k : Word) :
    feistelF (feistelRound d k >>> 32) k = feistelF d k := by
  refine feistelF_congr (fun i hlo hhi => ?_) fun _ _ => rfl
  rw [bit_shiftRight, bit_feistelRound d k (by omega), if_pos (by omega), Nat.sub_add_cancel hlo,
    decide_eq_true hhi, decide_eq_false (Nat.not_lt.2 hlo), Bool.not_false, Bool.true_and,
    Bool.true_and]

/-- Settles O40: the new left half is the old right half, and `F` of it cancels in the new right
half. -/
theorem roundIsInvertible : Obligations.RoundIsInvertible := by
  refine fun d k => ⟨(field_feistelRound_left d k).symm, ?_⟩
  rw [feistelF_feistelRound_shiftRight, field_feistelRound_right, Nat.xor_comm,
    Nat.xor_xor_cancel_left]

/-! ### FRND and SWAP (42 R93, R95) -/

theorem frnd_writesReg (rd rs1 rs2 : Reg) :
    WritesReg (.frnd rd rs1 rs2) rd fun s => feistelRound (s.readX rs1) (s.readX rs2) :=
  fun _ hr => congrArg _ (State.gated_of_running hr _)

theorem swap_writesReg (rd rs1 : Reg) :
    WritesReg (.swap rd rs1) rd fun s => swap32 (s.readX rs1) :=
  fun _ hr => congrArg _ (State.gated_of_running hr _)

/-- Settles O37: FRND writes the round of its two registers to one, whose halves are known. -/
theorem frndIsOneFeistelRound : Obligations.FrndIsOneFeistelRound := by
  intro s rd rs1 rs2 hr
  obtain ⟨t, hexec, hframe, hrd⟩ := (frnd_writesReg rd rs1 rs2).exec_eq_next hr
  refine ⟨t, hexec, hframe, ?_, ?_⟩
  · rw [hrd, field_feistelRound_left]
  · rw [hrd, field_feistelRound_right]

/-- The old right half on the left. -/
theorem bit_swap32_left (v : Word) {i : Nat} (h : i < 32) :
    bit (swap32 v) i = bit v (i + 32) := by
  rw [bit_swap32 v (by omega), if_pos h]

/-- The old left half on the right. -/
theorem bit_swap32_right (v : Word) {i : Nat} (h : i < 32) :
    bit (swap32 v) (i + 32) = bit v i := by
  rw [bit_swap32 v (by omega), if_neg (by omega), Nat.add_sub_cancel]

theorem swap32_swap32 (v : Word) : swap32 (swap32 v) = v := by
  refine word_ext fun i hi => ?_
  by_cases hleft : i < 32
  · rw [bit_swap32_left _ hleft, bit_swap32_right _ hleft]
  · obtain ⟨j, rfl⟩ := Nat.exists_eq_add_of_le' (Nat.not_lt.1 hleft)
    rw [bit_swap32_right _ (by omega), bit_swap32_left _ (by omega)]

/-- Settles O41: SWAP writes `Swap32` of its source to one register, which exchanges positions `i` and
`i + 32`. -/
theorem swapExchangesTheHalves : Obligations.SwapExchangesTheHalves := by
  refine ⟨fun s rd rs1 hr => ?_, swap32_swap32⟩
  obtain ⟨t, hexec, hframe, hrd⟩ := (swap_writesReg rd rs1).exec_eq_next hr
  refine ⟨t, hexec, hframe, fun i hi => ?_⟩
  rw [hrd]
  exact ⟨bit_swap32_left _ hi, bit_swap32_right _ hi⟩

end Sys2Proof.Machine

/-!
PROOFS of the reverse key schedule family (43_key_schedule_reverse.md): tracing positions through the
schedule, the provenance map, the candidates position by position and their laws, KSR, LDC and LDP.
-/

namespace Sys2Proof.Machine

/-! ### Tracing positions forward (43 R100) -/

/-- Entry `j` of `t` names the position of `K` whose bit stands at position `j` of the schedule
state `w`. -/
def Traces (K w : Word) (t : List Nat) : Prop := ∀ j, j < 56 → bit w j = bit K (t.getD j 0)

theorem getD_rotateTrace (r : Nat) (t : List Nat) {j : Nat} (hj : j < 56) :
    (rotateTrace r t).getD j 0 =
      if j < 28 then t.getD ((j + r) % 28) 0 else t.getD (28 + (j - 28 + r) % 28) 0 := by
  by_cases hleft : j < 28
  · simp [rotateTrace, List.getElem?_append, hleft]
  · simp [rotateTrace, List.getElem?_append, hleft, show j - 28 < 28 by omega]

/-- Rotating the halves of a state and of its trace keeps the trace true. -/
theorem Traces.rotate {K w : Word} {t : List Nat} (h : Traces K w t) (r : Nat) :
    Traces K (rotateHalves r w) (rotateTrace r t) := by
  intro j hj
  rw [bit_rotateHalves, getD_rotateTrace r t hj]
  by_cases hleft : j < 28
  · rw [if_pos hleft, if_pos hleft, h _ (by omega)]
  · rw [if_neg hleft, if_neg hleft, if_pos hj, h _ (by omega)]

theorem traces_romPC1 (K : Word) : Traces K (applyTable romPC1 K) (romPC1.map (· - 1)) := by
  intro j hj
  have hj' : j < romPC1.length := hj
  rw [bit_applyTable_of_lt romPC1_inRange K hj', List.getD_eq_getElem _ _ (by simpa using hj'),
    List.getElem_map]

/-- The state round `n` rotates is traced by PC1's sources, rotated for the rounds before. -/
theorem traces_stepState (K : Word) (n : Nat) :
    Traces K (stepState n (threadedState K n))
      ((List.range n).foldl (fun t k => rotateTrace (rotAmount k) t) (romPC1.map (· - 1))) := by
  induction n with
  | zero => exact traces_romPC1 K
  | succ n ih =>
    rw [List.range_succ, List.foldl_append]
    exact ih.rotate (rotAmount n)

/-- `Trace56(R)` traces the state after round `R`. -/
theorem traces_trace56 (K : Word) (R : Nat) :
    Traces K (keyStep R (threadedState K R)).2 (trace56 R) :=
  traces_stepState K (R + 1)

theorem subkey_eq (K : Word) (R : RoundIx) :
    subkey K R.val = applyTable romPC2 (keyStep R.val (threadedState K R.val)).2 := by
  simp [subkey, subkeys_eq_map, keyStep_fst]

theorem length_rkSrc (R : Nat) : (rkSrc R).length = 48 := List.length_map _

/-- Round-key bit `i` is the key's bit at `RkSrc(R)[i]`. -/
theorem bit_subkey_of_lt (K : Word) (R : RoundIx) {i : Nat} (hi : i < (rkSrc R.val).length) :
    bit (subkey K R.val) i = bit K (rkSrc R.val)[i] := by
  have hpc2 : ∀ t ∈ romPC2, t - 1 < 56 := by decide
  have hi' : i < romPC2.length := hi.trans_eq (length_rkSrc _)
  rw [subkey_eq, bit_applyTable_of_lt romPC2_inRange _ hi',
    traces_trace56 K R.val _ (hpc2 _ (List.getElem_mem hi'))]
  simp only [rkSrc, rkSrcOf, trace56, List.getElem_map]

theorem bit_subkey_of_ge (K : Word) (R : RoundIx) {i : Nat} (hi : 48 ≤ i) :
    bit (subkey K R.val) i = false := by
  rw [subkey_eq, bit_applyTable_of_ge romPC2_inRange _ hi]

theorem rkSrc_nodup (R : RoundIx) : (rkSrc R.val).Nodup := by
  revert R
  decide +kernel

/-- The schedule reads data positions only. -/
theorem rkSrc_data (R : RoundIx) : ∀ q ∈ rkSrc R.val, q < 64 ∧ q % 8 ≠ 7 := by
  revert R
  decide +kernel

/-- Settles O35: the states after each round are traced by the index arrays, of which PC2 selects 48
distinct data positions. -/
theorem roundKeyBitsAreMasterKeyBits : Obligations.RoundKeyBitsAreMasterKeyBits := by
  refine fun K R => ⟨fun i hi => ?_, length_rkSrc _, rkSrc_nodup R, rkSrc_data R⟩
  have hi' : i < (rkSrc R.val).length := hi.trans_eq (length_rkSrc _).symm
  rw [bit_subkey_of_lt K R hi', List.getD_eq_getElem _ _ hi']

/-! ### The provenance map (43 R101) -/

theorem slotOf_eq_parity_iff {src : List Nat} {q : Nat} : slotOf src q = .parity ↔ q % 8 = 7 := by
  unfold slotOf
  by_cases hq : q % 8 = 7
  · simp [hq]
  · cases src.findIdx? (· == q) <;> simp [hq]

theorem slotOf_eq_determined_iff {src : List Nat} {q p : Nat} :
    slotOf src q = .determined p ↔ q % 8 ≠ 7 ∧ src.findIdx? (· == q) = some p := by
  unfold slotOf
  by_cases hq : q % 8 = 7
  · simp [hq]
  · cases src.findIdx? (· == q) <;> simp [hq]

theorem slotOf_eq_unresolved_iff {src : List Nat} {q : Nat} :
    slotOf src q = .unresolved ↔ q % 8 ≠ 7 ∧ q ∉ src := by
  have hnone : src.findIdx? (· == q) = none ↔ q ∉ src := by
    rw [List.findIdx?_eq_none_iff]
    exact ⟨fun h hq => by simpa using h q hq, fun h x hx => beq_false_of_ne fun e => h (e ▸ hx)⟩
  rw [← hnone]
  unfold slotOf
  by_cases hq : q % 8 = 7
  · simp [hq]
  · cases src.findIdx? (· == q) <;> simp [hq]

theorem getElem_of_slotOf_eq_determined {src : List Nat} {q p : Nat}
    (h : slotOf src q = .determined p) : ∃ hp : p < src.length, src[p] = q := by
  obtain ⟨hp, he, _⟩ := List.findIdx?_eq_some_iff_getElem.1 (slotOf_eq_determined_iff.1 h).2
  exact ⟨hp, by simpa using he⟩

/-- The slot of the position that feeds round-key bit `p` is `p`. -/
theorem slotOf_getElem {src : List Nat} (hn : src.Nodup) {p : Nat} (hp : p < src.length)
    (hq : src[p] % 8 ≠ 7) : slotOf src src[p] = .determined p := by
  refine slotOf_eq_determined_iff.2 ⟨hq, List.findIdx?_eq_some_iff_getElem.2 ⟨hp, by simp, ?_⟩⟩
  intro j hj he
  exact hj.ne ((hn.getElem_inj_iff ..).1 (by simpa using he))

theorem length_unresolvedOf (R : RoundIx) : (unresolvedOf R.val).length = 8 := by
  rw [← unresolvedCount_rkSrc R, unresolvedCount, slotsOf, List.countP_map,
    List.countP_eq_length_filter]
  rfl

/-- An unresolved position feeds no bit of the round key. -/
theorem subkey_withBit_of_unresolved (K : Word) (R : RoundIx) {q : Nat} (hq : q < 64) (b : Bool)
    (h : slotOf (rkSrc R.val) q = .unresolved) :
    subkey (withBit K q b) R.val = subkey K R.val := by
  refine word_ext fun i _ => ?_
  by_cases hi : i < (rkSrc R.val).length
  · have hne : (rkSrc R.val)[i] ≠ q := fun e =>
      (slotOf_eq_unresolved_iff.1 h).2 (e ▸ List.getElem_mem hi)
    rw [bit_subkey_of_lt _ R hi, bit_subkey_of_lt K R hi, bit_withBit K hq, if_neg hne]
  · have hi48 : 48 ≤ i := by simpa [length_rkSrc] using hi
    rw [bit_subkey_of_ge _ R hi48, bit_subkey_of_ge K R hi48]

/-- Settles O43: a slot's class says where its position stands in the list of sources. -/
theorem provenanceMapInvertsTheSchedule : Obligations.ProvenanceMapInvertsTheSchedule := by
  refine fun R q => ⟨slotOf_eq_parity_iff.2, fun p hp => ?_, fun hu K b =>
    subkey_withBit_of_unresolved K R q.isLt b hu, length_unresolvedOf R, provMap_eq_some R⟩
  obtain ⟨hlt, hq⟩ := getElem_of_slotOf_eq_determined hp
  exact ⟨hlt.trans_eq (length_rkSrc _), fun K => by rw [bit_subkey_of_lt K R hlt, hq]⟩

/-! ### Recomputed parity (43 R102) -/

/-- The parity bit depends on the seven positions before it. -/
theorem parityBit_congr {pc : Bool} {K K' : Word} {q : Nat}
    (h : ∀ j, 1 ≤ j → j ≤ 7 → bit K (q - j) = bit K' (q - j)) :
    parityBit pc K q = parityBit pc K' q := by
  simp only [parityBit, h 1, h 2, h 3, h 4, h 5, h 6, h 7, Nat.reduceLeDiff]

/-- Every parity position holds the bit 43 R102 computes for it. -/
def HasParity (pc : Bool) (K : Word) : Prop :=
  ∀ q, q < 64 → q % 8 = 7 → bit K q = parityBit pc K q

/-- With parity recomputed, the data positions below `u` determine all positions below `u`. -/
theorem HasParity.bit_eq {pc : Bool} {K K' : Word} (h : HasParity pc K) (h' : HasParity pc K')
    {u : Nat} (hu : u ≤ 64) (hd : ∀ q, q < u → q % 8 ≠ 7 → bit K q = bit K' q) {q : Nat}
    (hq : q < u) : bit K q = bit K' q := by
  by_cases hp : q % 8 = 7
  · rw [h q (by omega) hp, h' q (by omega) hp]
    exact parityBit_congr fun j _ _ => hd _ (by omega) (by omega)
  · exact hd q hq hp

/-- The parity bit makes the bits of its byte XOR to `pc`. -/
theorem HasParity.byte_xor {pc : Bool} {K : Word} (h : HasParity pc K) {k : Nat} (hk : k < 8) :
    (List.range 8).foldl (fun b j => b ^^ bit K (8 * k + j)) false = pc := by
  have hlast := h (8 * k + 7) (by omega) (by omega)
  simp only [parityBit, Nat.add_sub_cancel, Nat.reduceSubDiff] at hlast
  have hrange : List.range 8 = [0, 1, 2, 3, 4, 5, 6, 7] := rfl
  simp only [hrange, List.foldl_cons, List.foldl_nil, Bool.false_xor, Nat.add_zero, hlast]
  rw [← Bool.xor_assoc, Bool.xor_self, Bool.false_xor]

/-- The loop of `withParity` over bytes `0 .. n-1`. -/
theorem bit_withParityLoop (pc : Bool) (K : Word) (n : Nat) (hn : n ≤ 8) (q : Nat) :
    bit ((List.range n).foldl
        (fun v k => withBit v (8 * k + 7) (parityBit pc v (8 * k + 7))) K) q =
      if q < 8 * n ∧ q % 8 = 7 then parityBit pc K q else bit K q := by
  induction n generalizing q with
  | zero => simp
  | succ n ih =>
    rw [List.range_succ, List.foldl_append, List.foldl_cons, List.foldl_nil,
      bit_withBit _ (by omega)]
    by_cases hq : q = 8 * n + 7
    · rw [if_pos hq, if_pos (by omega), hq]
      refine parityBit_congr fun j _ _ => ?_
      rw [ih (by omega), if_neg (by omega)]
    · rw [if_neg hq, ih (by omega)]
      exact if_congr (by omega) rfl rfl

theorem bit_withParity_of_parity (pc : Bool) (K : Word) {q : Nat} (hq : q < 64) (hp : q % 8 = 7) :
    bit (withParity pc K) q = parityBit pc K q := by
  rw [withParity, bit_withParityLoop pc K 8 le_rfl, if_pos ⟨hq, hp⟩]

theorem bit_withParity_of_data (pc : Bool) (K : Word) {q : Nat} (hp : q % 8 ≠ 7) :
    bit (withParity pc K) q = bit K q := by
  rw [withParity, bit_withParityLoop pc K 8 le_rfl, if_neg fun h => hp h.2]

theorem withParity_hasParity (pc : Bool) (K : Word) : HasParity pc (withParity pc K) := by
  intro q hq hp
  rw [bit_withParity_of_parity pc K hq hp]
  exact parityBit_congr fun j _ _ => (bit_withParity_of_data pc K (by omega)).symm

/-! ### A candidate position by position (43 R102) -/

/-- The bit the scan of 43 R102 gives position `q` of class `m`, after `n` unresolved positions. -/
def slotBit (pc : Bool) (rk : Word) (i : Nat) (m : Slot) (q n : Nat) (K : Word) : Bool :=
  match m with
  | .determined p => bit rk p
  | .unresolved => i.testBit (7 - n)
  | .parity => parityBit pc K q

theorem fillSlots_cons (pc : Bool) (rk : Word) (i : Nat) (m : Slot) (ms : List Slot) (q n : Nat)
    (K : Word) :
    fillSlots pc rk i (m :: ms) q n K =
      fillSlots pc rk i ms (q + 1) (n + if m = .unresolved then 1 else 0)
        (withBit K q (slotBit pc rk i m q n K)) := by
  cases m <;> rfl

theorem slotBit_congr {pc : Bool} {rk : Word} {i n : Nat} {m : Slot} {q : Nat} {K K' : Word}
    (hm : m = .parity → 0 < q) (h : ∀ j, j < q → bit K j = bit K' j) :
    slotBit pc rk i m q n K = slotBit pc rk i m q n K' := by
  cases m with
  | determined | unresolved => rfl
  | parity =>
    have hq := hm rfl
    exact parityBit_congr fun j _ _ => h _ (by omega)

section scan
variable (pc : Bool) (rk : Word) (i : Nat) (f : Nat → Slot)

/-- The scan of 43 R102 over `len` positions from `a` on, whose classes are given by `f`. -/
def scanFrom (len a : Nat) (K : Word) : Word :=
  fillSlots pc rk i ((List.range' a len).map f) a (Nat.count (f · = .unresolved) a) K

theorem scanFrom_succ (len a : Nat) (K : Word) :
    scanFrom pc rk i f (len + 1) a K =
      scanFrom pc rk i f len (a + 1)
        (withBit K a (slotBit pc rk i (f a) a (Nat.count (f · = .unresolved) a) K)) := by
  rw [scanFrom, List.range'_succ, List.map_cons, fillSlots_cons,
    ← Nat.count_succ (f · = .unresolved), scanFrom]

theorem bit_scanFrom_passed {len a : Nat} (ha : a + len ≤ 64) (K : Word) {q : Nat} (hq : q < a) :
    bit (scanFrom pc rk i f len a K) q = bit K q :=
  bit_fillSlots_passed pc rk i _ a _ K (by simpa using ha) hq

variable {f} (hf : ∀ q, f q = .parity → 0 < q)
include hf

/-- Each position the scan passes keeps its bit, and a parity position is computed from bits that
stay. -/
theorem bit_scanFrom {len a : Nat} (ha : a + len ≤ 64) (K : Word) {q : Nat} (haq : a ≤ q)
    (hq : q < a + len) :
    bit (scanFrom pc rk i f len a K) q =
      slotBit pc rk i (f q) q (Nat.count (f · = .unresolved) q) (scanFrom pc rk i f len a K) := by
  induction len generalizing a K with
  | zero => omega
  | succ len ih =>
    have ha' : a + 1 + len ≤ 64 := by omega
    rw [scanFrom_succ]
    obtain rfl | hlt := Nat.eq_or_lt_of_le haq
    · rw [bit_scanFrom_passed pc rk i f ha' _ a.lt_succ_self, bit_withBit _ (by omega), if_pos rfl]
      refine slotBit_congr (hf a) fun j hj => ?_
      rw [bit_scanFrom_passed pc rk i f ha' _ (by omega), bit_withBit _ (by omega), if_neg hj.ne]
    · exact ih ha' _ hlt (by omega)

end scan

/-- The class of the eight positions the schedule of round `R` discards. -/
abbrev Unresolved (R q : Nat) : Prop := slotOf (rkSrc R) q = .unresolved

theorem candidate_eq_scanFrom (pc : Bool) (rk : Word) (R : RoundIx) (i : Nat) :
    candidate pc rk R.val i = scanFrom pc rk i (slotOf (rkSrc R.val)) 64 0 0 := by
  rw [candidate, provMap_eq_some, scanFrom, ← List.range_eq_range', Nat.count_zero]
  rfl

theorem bit_candidate (pc : Bool) (rk : Word) (R : RoundIx) (i : Nat) {q : Nat} (hq : q < 64) :
    bit (candidate pc rk R.val i) q =
      slotBit pc rk i (slotOf (rkSrc R.val) q) q (Nat.count (Unresolved R.val) q)
        (candidate pc rk R.val i) := by
  have hpos : ∀ q, slotOf (rkSrc R.val) q = .parity → 0 < q := fun q hp => by
    have := slotOf_eq_parity_iff.1 hp
    omega
  rw [candidate_eq_scanFrom]
  exact bit_scanFrom pc rk i hpos (by omega) 0 q.zero_le (by omega)

section candidate
variable (pc : Bool) (rk : Word) (R : RoundIx) (i : Nat) {q : Nat} (hq : q < 64)
include hq

theorem bit_candidate_of_determined {p : Nat} (h : slotOf (rkSrc R.val) q = .determined p) :
    bit (candidate pc rk R.val i) q = bit rk p := by
  rw [bit_candidate pc rk R i hq, h, slotBit]

theorem bit_candidate_of_unresolved (h : Unresolved R.val q) :
    bit (candidate pc rk R.val i) q = i.testBit (7 - Nat.count (Unresolved R.val) q) := by
  rw [bit_candidate pc rk R i hq, h, slotBit]

end candidate

theorem candidate_hasParity (pc : Bool) (rk : Word) (R : RoundIx) (i : Nat) :
    HasParity pc (candidate pc rk R.val i) := by
  intro q hq hp
  rw [bit_candidate pc rk R i hq, slotOf_eq_parity_iff.2 hp, slotBit]

/-- Settles O48: a candidate's parity positions are computed. -/
theorem candidateBytesHaveTheirParity : Obligations.CandidateBytesHaveTheirParity :=
  fun pc rk R i _ hk => (candidate_hasParity pc rk R i.val).byte_xor hk

/-! ### The unresolved positions and the index (43 R104, R107) -/

theorem count_unresolved (R : RoundIx) : Nat.count (Unresolved R.val) 64 = 8 := by
  rw [← length_unresolvedOf R, unresolvedOf, ← List.countP_eq_length_filter]
  rfl

/-- Below a bound the `k`-th element exists when more than `k` are counted. -/
theorem exists_count_eq {p : Nat → Prop} [DecidablePred p] {k n : Nat} (h : k < Nat.count p n) :
    ∃ u, u < n ∧ p u ∧ Nat.count p u = k := by
  have hcard := fun hf => h.trans_le (Nat.count_le_card hf n)
  exact ⟨Nat.nth p k, Nat.nth_lt_of_lt_count h, Nat.nth_mem k hcard, Nat.count_nth hcard⟩

/-- The most significant bit in which two numbers differ orders them. -/
theorem exists_testBit_of_lt {i j : Nat} (h : i < j) :
    ∃ b, i.testBit b = false ∧ j.testBit b = true ∧ ∀ k, b < k → i.testBit k = j.testBit k := by
  obtain ⟨b, hb, habove⟩ := Nat.exists_most_significant_bit (Nat.xor_ne_zero_iff.2 h.ne)
  simp only [Nat.testBit_xor, bne_iff_ne, bne_eq_false_iff_eq] at hb habove
  cases hi : i.testBit b with
  | false => exact ⟨b, hi, by simpa [hi] using hb.symm, habove⟩
  | true =>
    have hji : j < i := Nat.lt_of_testBit b (by simpa [hi] using hb.symm) hi
      fun k hk => (habove k hk).symm
    omega

/-- At the first position in which two containers differ, the smaller has 0. -/
theorem toNat_lt_of_bit {v w : Word} {u : Nat} (hu : u < 64) (hv : bit v u = false)
    (hw : bit w u = true) (hbelow : ∀ q, q < u → bit v q = bit w q) : v.toNat < w.toNat := by
  have hpos : 63 - (63 - u) = u := by omega
  refine Nat.lt_of_testBit (63 - u) ?_ ?_ fun k hk => ?_
  · rw [testBit_toNat_eq_bit v (by omega), hpos, hv]
  · rw [testBit_toNat_eq_bit w (by omega), hpos, hw]
  · by_cases hk64 : k < 64
    · rw [testBit_toNat_eq_bit v hk64, testBit_toNat_eq_bit w hk64, hbelow _ (by omega)]
    · simp [BitVec.testBit_toNat, BitVec.getLsbD_of_ge, Nat.not_lt.1 hk64]

/-- Two candidates of one round key agree as far as their indices do. -/
theorem bit_candidate_congr (pc : Bool) (rk : Word) (R : RoundIx) {i j u : Nat} (hu : u ≤ 64)
    (h : ∀ q, q < u → Unresolved R.val q →
      i.testBit (7 - Nat.count (Unresolved R.val) q) =
        j.testBit (7 - Nat.count (Unresolved R.val) q))
    {q : Nat} (hq : q < u) :
    bit (candidate pc rk R.val i) q = bit (candidate pc rk R.val j) q := by
  refine (candidate_hasParity pc rk R i).bit_eq (candidate_hasParity pc rk R j) hu
    (fun q hq hdata => ?_) hq
  have hq64 : q < 64 := by omega
  cases hslot : slotOf (rkSrc R.val) q with
  | determined p =>
    rw [bit_candidate_of_determined pc rk R i hq64 hslot,
      bit_candidate_of_determined pc rk R j hq64 hslot]
  | unresolved =>
    rw [bit_candidate_of_unresolved pc rk R i hq64 hslot,
      bit_candidate_of_unresolved pc rk R j hq64 hslot, h q hq hslot]
  | parity => exact absurd (slotOf_eq_parity_iff.1 hslot) hdata

/-- Settles O45: the most significant bit in which the indices differ goes to an unresolved position,
before which the two candidates agree. -/
theorem candidatesAscend : Obligations.CandidatesAscend := by
  intro pc rk R i j hij
  obtain ⟨b, hi, hj, habove⟩ := exists_testBit_of_lt (Fin.lt_def.1 hij)
  have hb : b < 8 := by
    have := Nat.ge_two_pow_of_testBit hj
    exact (Nat.pow_lt_pow_iff_right (a := 2) (by decide)).1 (by omega)
  have hk : 7 - b < Nat.count (Unresolved R.val) 64 := by
    rw [count_unresolved]
    omega
  obtain ⟨u, hu, hunres, hcount⟩ := exists_count_eq hk
  have hweight : 7 - Nat.count (Unresolved R.val) u = b := by omega
  refine toNat_lt_of_bit hu ?_ ?_ fun q => bit_candidate_congr pc rk R hu.le fun q hq hslot => ?_
  · rw [bit_candidate_of_unresolved pc rk R _ hu hunres, hweight, hi]
  · rw [bit_candidate_of_unresolved pc rk R _ hu hunres, hweight, hj]
  · have hlt := Nat.count_strict_mono hslot hq
    exact habove _ (by omega)

/-- Settles O44: of two different indices one is lower, and its candidate is smaller. -/
theorem candidatesAreDistinct : Obligations.CandidatesAreDistinct := by
  intro pc rk R i j heq
  obtain hlt | rfl | hlt := lt_trichotomy i j
  · exact absurd (candidatesAscend pc rk R i j hlt) (heq ▸ lt_irrefl _)
  · rfl
  · exact absurd (candidatesAscend pc rk R j i hlt) (heq ▸ lt_irrefl _)

theorem bit_roundKeyMask {i : Nat} (h : i < 64) :
    bit 0xFFFFFFFFFFFF0000 i = decide (i < 48) := by
  have hall : ∀ j, j < 64 → bit 0xFFFFFFFFFFFF0000 j = decide (j < 48) := by decide
  exact hall i h

/-- Settles O46: the position feeding round-key bit `i` was filled with bit `i` of the round key. -/
theorem everyCandidateReproducesTheRoundKey : Obligations.EveryCandidateReproducesTheRoundKey := by
  refine fun pc rk R i => word_ext fun k hk => ?_
  rw [bit_and, bit_roundKeyMask hk]
  by_cases h48 : k < 48
  · have hlen : k < (rkSrc R.val).length := h48.trans_eq (length_rkSrc _).symm
    obtain ⟨hq, hdata⟩ := rkSrc_data R _ (List.getElem_mem hlen)
    rw [bit_subkey_of_lt _ R hlen, bit_candidate_of_determined pc rk R i.val hq
      (slotOf_getElem (rkSrc_nodup R) hlen hdata), decide_eq_true h48, Bool.and_true]
  · rw [bit_subkey_of_ge _ R (by omega), decide_eq_false h48, Bool.and_false]

/-- The number the bits `g` at the positions `p` below `n` form, the lowest position the most
significant. -/
def bitsNumber (p : Nat → Prop) [DecidablePred p] (g : Nat → Bool) (n : Nat) : Nat :=
  ((List.range n).filter p).foldl (fun m u => 2 * m + (g u).toNat) 0

theorem bitsNumber_succ (p : Nat → Prop) [DecidablePred p] (g : Nat → Bool) (n : Nat) :
    bitsNumber p g (n + 1) =
      if p n then 2 * bitsNumber p g n + (g n).toNat else bitsNumber p g n := by
  unfold bitsNumber
  rw [List.range_succ, List.filter_append, List.foldl_append]
  by_cases h : p n
  · simp [h]
  · simp [h]

theorem bitsNumber_lt (p : Nat → Prop) [DecidablePred p] (g : Nat → Bool) (n : Nat) :
    bitsNumber p g n < 2 ^ Nat.count p n := by
  induction n with
  | zero => simp [bitsNumber]
  | succ n ih =>
    rw [bitsNumber_succ, Nat.count_succ]
    by_cases h : p n
    · have := (g n).toNat_le
      rw [if_pos h, if_pos h, Nat.pow_succ]
      omega
    · simpa [h] using ih

/-- The position with `k` others before it has weight `2^(count - 1 - k)`. -/
theorem testBit_bitsNumber (p : Nat → Prop) [DecidablePred p] (g : Nat → Bool) {q n : Nat}
    (hp : p q) (hq : q < n) :
    (bitsNumber p g n).testBit (Nat.count p n - 1 - Nat.count p q) = g q := by
  induction n with
  | zero => omega
  | succ n ih =>
    rw [bitsNumber_succ, Nat.count_succ]
    obtain rfl | hlt := Nat.eq_or_lt_of_le (Nat.le_of_lt_succ hq)
    · rw [if_pos hp, if_pos hp, Nat.add_sub_cancel, Nat.sub_self, Nat.testBit_zero]
      cases g q <;> simp
    · have hcount := Nat.count_strict_mono hp hlt
      by_cases h : p n
      · have hhalf : (2 * bitsNumber p g n + (g n).toNat) / 2 = bitsNumber p g n := by
          have := (g n).toNat_le
          omega
        rw [if_pos h, if_pos h, show Nat.count p n + 1 - 1 - Nat.count p q =
          Nat.count p n - 1 - Nat.count p q + 1 by omega, Nat.testBit_add_one, hhalf, ih hlt]
      · rw [if_neg h, if_neg h, Nat.add_zero, ih hlt]

theorem indexOfKey_eq (K : Word) (R : Nat) :
    indexOfKey K R = bitsNumber (Unresolved R) (bit K) 64 := rfl

theorem indexOfKey_lt (K : Word) (R : RoundIx) : indexOfKey K R.val < 256 := by
  have h := bitsNumber_lt (Unresolved R.val) (bit K) 64
  rwa [← indexOfKey_eq, count_unresolved] at h

/-- Settles O47: the candidate agrees with the key on the determined positions, by the map, and on
the unresolved ones, by the index; both have their parity recomputed. -/
theorem everyKeyIsAmongItsCandidates : Obligations.EveryKeyIsAmongItsCandidates := by
  refine fun pc K R => ⟨indexOfKey_lt K R, word_ext fun q hq => ?_⟩
  refine (candidate_hasParity pc _ R _).bit_eq (withParity_hasParity pc K) le_rfl
    (fun q hq hdata => ?_) hq
  rw [bit_withParity_of_data pc K hdata]
  cases hslot : slotOf (rkSrc R.val) q with
  | determined p =>
    obtain ⟨hp, hsrc⟩ := getElem_of_slotOf_eq_determined hslot
    rw [bit_candidate_of_determined pc _ R _ hq hslot, bit_subkey_of_lt K R hp, hsrc]
  | unresolved =>
    have hbit := testBit_bitsNumber (Unresolved R.val) (bit K) hslot hq
    rw [count_unresolved, ← indexOfKey_eq] at hbit
    rw [bit_candidate_of_unresolved pc _ R _ hq hslot, hbit]
  | parity => exact absurd (slotOf_eq_parity_iff.1 hslot) hdata

/-! ### KSR (43 R103) and the check of the map (43 R107) -/

theorem exec_ksr_of_running {s : State} (rs1 : Reg) (rnd : RoundIx) (hr : Running s) :
    exec (.ksr rs1 rnd) s = .next (s.scheduled (s.readX rs1) rnd) :=
  congrArg Host.Outcome.next ((State.gated_of_running hr _).trans (ksrEffect_eq_scheduled rs1 rnd s))

theorem readProv_scheduled (s : State) (rk : Word) (rnd : RoundIx) {q : Nat} (hq : q < 64) :
    (s.scheduled rk rnd).readProv q = slotByte (slotOf (rkSrc rnd.val) q) :=
  State.readProv_fillProv s (fun q => slotByte (slotOf (rkSrc rnd.val) q)) hq

theorem readCand_scheduled (s : State) (rk : Word) (rnd : RoundIx) {i : Nat} (hi : i < 256) :
    (s.scheduled rk rnd).readCand i = candidate Config.parityComplement rk rnd.val i :=
  State.readCand_fillCand s _ hi

/-- Settles O42: KSR on a running block is the fill of both memories. -/
theorem ksrStoresTheReverseSchedule : Obligations.KsrStoresTheReverseSchedule :=
  fun s rs1 rnd hr =>
    ⟨s.scheduled (s.readX rs1) rnd, exec_ksr_of_running rs1 rnd hr,
      fun _ hq => readProv_scheduled s _ rnd hq, fun _ hi => readCand_scheduled s _ rnd hi,
      Memory.fill_wf 256 _, Memory.fill_wf 64 fun q => slotByte (slotOf (rkSrc rnd.val) q),
      rfl, rfl, rfl, rfl, rfl, hr, rfl, fun _ => rfl, rfl, rfl, rfl⟩

/-- No command records a cause but IllegalCommand and CandInvalid. -/
theorem Effect.cause {s t : State} {i : Instr} (h : Effect s i t) :
    t.status.cause = s.status.cause ∨ t.status.cause = causeCode .illegalCommand ∨
      t.status.cause = causeCode .candInvalid := by
  cases h with
  | ignored | registers | rdata | schedule => exact .inl rfl
  | search rd rs1 rs2 rs3 rnd =>
    obtain ⟨_, _, he⟩ | ⟨_, he⟩ := searchStored_cases rd (s.readX rs2) (s.readX rs3)
      (s.scheduled (s.readX rs1) rnd)
    · exact .inl (he ▸ rfl)
    · exact .inl (he ▸ rfl)
  | oneDestination => exact .inr (.inl rfl)
  | ldcInvalid | ldpInvalid => exact .inr (.inr rfl)

/-- A step keeps CAUSE, clears it, or records one of the two causes that can occur. -/
theorem step_cause {s t : State} (h : step s = .next t) :
    t.status.cause = s.status.cause ∨ t.status.cause = 0 ∨
      t.status.cause = causeCode .illegalCommand ∨ t.status.cause = causeCode .candInvalid := by
  obtain ⟨_, hs⟩ | ⟨rest, _, hs⟩ | ⟨_, v, rest, i, _, _, hs⟩ | ⟨_, v, rest, _, _, _, hs⟩ :=
    step_cases s
  · obtain rfl := Host.Outcome.next.inj (hs.symm.trans h)
    exact .inl rfl
  · obtain rfl := Host.Outcome.next.inj (hs.symm.trans h)
    exact .inr (.inl rfl)
  · exact (effect_of_exec (hs.symm.trans h)).cause.imp_right .inr
  · obtain rfl := Host.Outcome.next.inj (hs.symm.trans h)
    obtain ⟨_, he⟩ | ⟨_, he⟩ := State.gated_cases (s.present v rest) (·.raise .illegalCommand)
    · exact .inl (congrArg (·.status.cause) he)
    · exact .inr (.inr (.inl (congrArg (·.status.cause) he)))

/-- Settles O12: InvariantViolation is none of the causes a step can write. -/
theorem invariantViolationIsNeverRecorded : Obligations.InvariantViolationIsNeverRecorded := by
  intro s t h hc
  obtain he | he | he | he := step_cause h
  · exact he.symm.trans hc
  · exact absurd (he.symm.trans hc) (by decide)
  · exact absurd (he.symm.trans hc) (by decide)
  · exact absurd (he.symm.trans hc) (by decide)

/-! ### LDC and LDP (43 R105, R106) -/

section load
variable {s : State} (rd : Reg) (hr : Running s)
include hr

theorem exec_ldc_of_cv (idx : CandIx) (hcv : s.status.cv = true) :
    exec (.ldc rd idx) s = .next (s.writeX rd (s.readCand idx.val)) :=
  congrArg Host.Outcome.next ((State.gated_of_running hr _).trans (if_pos hcv))

theorem exec_ldp_of_cv (idx : Pos) (hcv : s.status.cv = true) :
    exec (.ldp rd idx) s = .next (s.writeX rd ((s.readProv idx.val).setWidth 64)) :=
  congrArg Host.Outcome.next ((State.gated_of_running hr _).trans (if_pos hcv))

theorem exec_ldc_of_not_cv (idx : CandIx) (hcv : s.status.cv = false) :
    exec (.ldc rd idx) s = .next (s.raise .candInvalid) :=
  congrArg Host.Outcome.next
    ((State.gated_of_running hr _).trans (if_neg (ne_true_of_eq_false hcv)))

theorem exec_ldp_of_not_cv (idx : Pos) (hcv : s.status.cv = false) :
    exec (.ldp rd idx) s = .next (s.raise .candInvalid) :=
  congrArg Host.Outcome.next
    ((State.gated_of_running hr _).trans (if_neg (ne_true_of_eq_false hcv)))

end load

/-- Settles O49: past the open gate and the check of CV both are one register write, and
zero-extending a byte keeps it. -/
theorem ldcAndLdpReadTheStoredElement : Obligations.LdcAndLdpReadTheStoredElement := by
  refine fun s rd hr hcv => ⟨fun idx => ⟨_, exec_ldc_of_cv rd hr idx hcv, writeX_onlyRegs s rd _,
    State.readX_writeX_same s rd _⟩, fun idx => ⟨_, exec_ldp_of_cv rd hr idx hcv,
    writeX_onlyRegs s rd _, ?_, ?_⟩⟩
  · rw [State.readX_writeX_same, BitVec.setWidth_setWidth_of_le _ (by decide), BitVec.setWidth_eq]
  · rw [State.readX_writeX_same, BitVec.toNat_setWidth_of_le (by decide)]
    exact (s.readProv idx.val).isLt

/-- Settles O50: past the open gate the check of CV leads to fault entry. -/
theorem ldcAndLdpBeforeAFillFault : Obligations.LdcAndLdpBeforeAFillFault :=
  fun s rd hr hcv =>
    ⟨fun idx => ⟨_, exec_ldc_of_not_cv rd hr idx hcv, raise_onlyFault s _⟩,
      fun idx => ⟨_, exec_ldp_of_not_cv rd hr idx hcv, raise_onlyFault s _⟩⟩

theorem toNat_slotByte_determined {p : Nat} (hp : p < 48) :
    ((slotByte (.determined p)).setWidth 64).toNat = p := by
  rw [BitVec.toNat_setWidth_of_le (by decide), slotByte, BitVec.toNat_ofNat,
    Nat.mod_eq_of_lt (by omega)]

/-- Settles O51: the invariant says that the slot read is that of the round, and a slot's class shows
in its stored form. -/
theorem ldpGivesASlotValue : Obligations.LdpGivesASlotValue := by
  intro s rd idx hinv hr hcv
  refine ⟨_, exec_ldp_of_cv rd hr idx hcv, ?_⟩
  rw [State.readX_writeX_same, hinv.provOfRound hcv idx.val idx.isLt]
  cases hslot : slotOf (rkSrc s.status.cr.toNat) idx.val with
  | determined p =>
    obtain ⟨hlen, _⟩ := getElem_of_slotOf_eq_determined hslot
    have hp : p < 48 := hlen.trans_eq (length_rkSrc _)
    have hnum := toNat_slotByte_determined hp
    have hne : (slotByte (.determined p)).setWidth 64 ≠ 0xC0 := fun e =>
      absurd (hnum.symm.trans (congrArg BitVec.toNat e)) (hp.trans (by decide)).ne
    exact ⟨.inl (by omega), iff_of_false hne (slotOf_eq_determined_iff.1 hslot).1⟩
  | unresolved =>
    exact ⟨.inr (.inl rfl), iff_of_false (by decide) (slotOf_eq_unresolved_iff.1 hslot).1⟩
  | parity => exact ⟨.inr (.inr rfl), iff_of_true rfl (slotOf_eq_parity_iff.1 hslot)⟩

end Sys2Proof.Machine

/-!
PROOFS of the key recovery search family (44_key_recovery_search.md): ENC and the known answer, the
command sequence that computes it, and KSRCH as a search of the schedule it stores.
-/

namespace Sys2Proof.Machine

/-! ### ENC (44 R110, R111) -/

theorem enc_writesReg (rd rs1 rs2 : Reg) :
    WritesReg (.enc rd rs1 rs2) rd fun s => encrypt (s.readX rs1) (s.readX rs2) :=
  fun _ hr => congrArg _ (State.gated_of_running hr _)

/-- The known-answer vector of 44 R110. -/
theorem encrypt_knownAnswer :
    encrypt 0x133457799BBCDFF1 0x0123456789ABCDEF = 0x85E813540F0AB405 := by
  decide +kernel

/-- Settles O52: ENC writes `Encrypt` of its two registers to one; the vector is `Encrypt` evaluated
once. -/
theorem encEncryptsOneBlock : Obligations.EncEncryptsOneBlock := by
  intro s rd rs1 rs2 hr
  obtain ⟨t, hexec, hframe, hrd⟩ := (enc_writesReg rd rs1 rs2).exec_eq_next hr
  refine ⟨t, hexec, hframe, hrd, fun hkey hplain => ?_⟩
  rw [hrd, hkey, hplain, encrypt_knownAnswer]

/-! ### ENC from the primitive commands (44 R111 corner case c) -/

theorem execAll_cons {i : Instr} {s t : State} (h : exec i s = .next t) (is : List Instr) :
    execAll (i :: is) s = execAll is t := by
  simp only [execAll, h]

theorem execAll_append {is : List Instr} {s t : State} (h : execAll is s = .next t)
    (js : List Instr) : execAll (is ++ js) s = execAll js t := by
  induction is generalizing s with
  | nil => rw [List.nil_append, Host.Outcome.next.inj h]
  | cons i is ih =>
    obtain ⟨u, hu⟩ := exec_eq_next i s
    rw [execAll_cons hu] at h
    rw [List.cons_append, execAll_cons hu, ih h]

section sequence
variable {d k r : Reg} (hdk : d ≠ k) (hdr : d ≠ r) (hkr : k ≠ r)
include hdk hdr hkr

/-- KSF and FRND make one round of the block and step the schedule state. -/
theorem execAll_ksf_frnd (n : RoundIx) {s : State} (hr : Running s) :
    ∃ t, execAll [.ksf r k k n, .frnd d d r] s = .next t ∧ OnlyRegs [d, k, r] s t ∧
      t.readX k = (keyStep n.val (s.readX k)).2 ∧
      t.readX d = feistelRound (s.readX d) (keyStep n.val (s.readX k)).1 := by
  have hsu := ksfEffect_onlyRegs r k k n s
  have hud : (ksfEffect r k k n s).readX d = s.readX d := hsu.regs d (by simp [hdr, hdk])
  obtain ⟨t, hexec, hut, htd⟩ := (frnd_writesReg d d r).exec_eq_next (hsu.running hr)
  refine ⟨t, ?_, (hsu.mono (by simp)).trans (hut.mono (by simp)), ?_, ?_⟩
  · rw [execAll_cons (exec_ksf_of_ne k n hr hkr.symm), execAll_cons hexec, execAll]
  · rw [hut.regs k (by simpa using hdk.symm), readX_ksfEffect_rd2 k n s hkr.symm]
  · rw [htd, hud, readX_ksfEffect_rd]

/-- KSF and FRND of the listed rounds fold the rounds of the subkeys over the block. -/
theorem execAll_rounds (ns : List Nat) (hns : ∀ n ∈ ns, n < 16) {s : State} (hr : Running s) :
    ∃ t, execAll (ns.flatMap fun n => [.ksf r k k (Fin.ofNat 16 n), .frnd d d r]) s = .next t ∧
      OnlyRegs [d, k, r] s t ∧
      t.readX d = (subkeysFrom ns (s.readX k)).foldl feistelRound (s.readX d) := by
  induction ns generalizing s with
  | nil => exact ⟨s, rfl, onlyRegs_refl _ s, rfl⟩
  | cons n ns ih =>
    obtain ⟨hn, hns⟩ := List.forall_mem_cons.1 hns
    have hround : (Fin.ofNat 16 n).val = n := Nat.mod_eq_of_lt hn
    obtain ⟨u, hu, hsu, huk, hud⟩ := execAll_ksf_frnd hdk hdr hkr (Fin.ofNat 16 n) hr
    obtain ⟨t, ht, hut, htd⟩ := ih hns (hsu.running hr)
    refine ⟨t, ?_, hsu.trans hut, ?_⟩
    · rw [List.flatMap_cons, execAll_append hu, ht]
    · rw [htd, huk, hud, hround, subkeysFrom, List.foldl_cons]

end sequence

/-- Settles O53: IP, the sixteen rounds, the half swap and FP are the four parts of `Encrypt`, which
ENC computes. -/
theorem primitiveCommandsComputeEnc : Obligations.PrimitiveCommandsComputeEnc := by
  intro s d k r hr hdk hdr hkr
  obtain ⟨s₁, h₁, hs₁, hd₁⟩ := (perm_writesReg d d true).exec_eq_next hr
  have hr₁ := hs₁.running hr
  have hk₁ : s₁.readX k = s.readX k := hs₁.regs k (by simpa using hdk.symm)
  obtain ⟨s₂, h₂, hs₂, hd₂⟩ :=
    execAll_rounds hdk hdr hkr (List.range 16) (fun _ => List.mem_range.1) hr₁
  have hr₂ := hs₂.running hr₁
  obtain ⟨s₃, h₃, hs₃, hd₃⟩ := (swap_writesReg d d).exec_eq_next hr₂
  have hr₃ := hs₃.running hr₂
  obtain ⟨t, h₄, ht, hd₄⟩ := (perm_writesReg d d false).exec_eq_next hr₃
  have henc : t.readX d = encrypt (s.readX k) (s.readX d) := by
    rw [hd₄, hd₃, hd₂, hd₁, hk₁]
    rfl
  obtain ⟨u, hu, -, hud⟩ := (enc_writesReg d k d).exec_eq_next hr
  refine ⟨t, ?_, ?_, henc, u, hu, hud.trans henc.symm⟩
  · rw [List.append_assoc, List.singleton_append, execAll_cons h₁, execAll_append h₂,
      execAll_cons h₃, execAll_cons h₄, execAll]
  · have hsub : ∀ q ∈ [d], q ∈ [d, k, r] := by simp
    exact (((hs₁.mono hsub).trans hs₂).trans (hs₃.mono hsub)).trans (ht.mono hsub)

/-! ### The search of the stored candidates (44 R112) -/

theorem exec_ksrch_of_running {s : State} (rd rs1 rs2 rs3 : Reg) (rnd : RoundIx) (hr : Running s) :
    exec (.ksrch rd rs1 rs2 rs3 rnd) s =
      .next (searchStored rd (s.readX rs2) (s.readX rs3) (s.scheduled (s.readX rs1) rnd)) :=
  congrArg Host.Outcome.next
    ((State.gated_of_running hr _).trans (ksrchEffect_eq_searchStored rd rs1 rs2 rs3 rnd s))

section search
variable (rd : Reg) (pt ct : Word) (s : State)

/-- The search writes neither memory. -/
theorem searchStored_memories :
    (searchStored rd pt ct s).cand = s.cand ∧ (searchStored rd pt ct s).prov = s.prov := by
  obtain ⟨i, _, he⟩ | ⟨_, he⟩ := searchStored_cases rd pt ct s
  · simp [he]
  · simp [he]

/-- The search writes no field of STATUS but FOUND, NF and IDX. -/
theorem searchStored_status :
    (searchStored rd pt ct s).status.cv = s.status.cv ∧
      (searchStored rd pt ct s).status.cr = s.status.cr ∧
      (searchStored rd pt ct s).status.fault = s.status.fault ∧
      (searchStored rd pt ct s).status.cause = s.status.cause := by
  obtain ⟨i, _, he⟩ | ⟨_, he⟩ := searchStored_cases rd pt ct s
  · simp [he]
  · simp [he]

theorem readX_searchStored_of_ne {q : Reg} (hq : q ≠ rd) :
    (searchStored rd pt ct s).readX q = s.readX q := by
  obtain ⟨i, _, he⟩ | ⟨_, he⟩ := searchStored_cases rd pt ct s
  · rw [he, State.readX_setStatus, State.readX_writeX_other _ _ hq]
  · rw [he, State.readX_setStatus, State.readX_writeX_other _ _ hq]

theorem readCand_searchStored (i : Nat) : (searchStored rd pt ct s).readCand i = s.readCand i := by
  rw [State.readCand, (searchStored_memories rd pt ct s).1, State.readCand]

theorem readProv_searchStored (q : Nat) : (searchStored rd pt ct s).readProv q = s.readProv q := by
  rw [State.readProv, (searchStored_memories rd pt ct s).2, State.readProv]

variable {rd pt ct s}

/-- What the search leaves in the destination and the three outcome fields after a match. -/
theorem searchStored_of_match {i : Nat} (h : firstMatch s pt ct = some i) :
    (searchStored rd pt ct s).readX rd = s.readCand i ∧
      (searchStored rd pt ct s).status.found = true ∧
      (searchStored rd pt ct s).status.nf = false ∧
      (searchStored rd pt ct s).status.idx.toNat = i := by
  have hi : i < 256 := (firstMatch_eq_some h).1
  simp [searchStored, h, hi]

/-- What the search leaves in the destination and the three outcome fields without a match. -/
theorem searchStored_of_exhaustion (h : firstMatch s pt ct = none) :
    (searchStored rd pt ct s).readX rd = 0 ∧ (searchStored rd pt ct s).status.found = false ∧
      (searchStored rd pt ct s).status.nf = true ∧ (searchStored rd pt ct s).status.idx = 0 := by
  simp [searchStored, h]

end search

/-! ### KSRCH (44 R112, R113) -/

/-- Settles O54: KSRCH searches the schedule it stores, and the search's outcome speaks of the stored
candidates. -/
theorem ksrchFindsTheFirstMatch : Obligations.KsrchFindsTheFirstMatch := by
  intro s rd rs1 rs2 rs3 rnd hr
  have hcand := fun i hi => readCand_scheduled s (s.readX rs1) rnd (i := i) hi
  refine ⟨_, exec_ksrch_of_running rd rs1 rs2 rs3 rnd hr, fun q hq => ?_, fun i hi => ?_, ?_⟩
  · rw [readProv_searchStored, readProv_scheduled s _ rnd hq]
  · rw [readCand_searchStored, hcand i hi]
  obtain ⟨hcv, hcr, hfault, hcause⟩ :=
    searchStored_status rd (s.readX rs2) (s.readX rs3) (s.scheduled (s.readX rs1) rnd)
  obtain ⟨hrdata, hwdata, hpending⟩ :=
    searchStored_frame rd (s.readX rs2) (s.readX rs3) (s.scheduled (s.readX rs1) rnd)
  refine ⟨hcv, congrArg BitVec.toNat hcr, hfault.trans hr, hcause,
    fun q hq => readX_searchStored_of_ne rd _ _ _ hq, hrdata, hwdata, hpending, ?_⟩
  cases hmatch : firstMatch (s.scheduled (s.readX rs1) rnd) (s.readX rs2) (s.readX rs3) with
  | some i =>
    obtain ⟨hi, henc, hfirst⟩ := firstMatch_eq_some hmatch
    obtain ⟨hrd, houtcome⟩ := searchStored_of_match (rd := rd) hmatch
    refine .inl ⟨⟨i, hi⟩, hcand i hi ▸ henc, fun j hj => ?_, hrd.trans (hcand i hi), houtcome⟩
    exact hcand j j.isLt ▸ hfirst j hj
  | none =>
    exact .inr ⟨fun j => hcand j j.isLt ▸ firstMatch_eq_none hmatch j j.isLt,
      searchStored_of_exhaustion hmatch⟩

/-- The candidate at a key's index encrypts as the key does (43 R104 item 4, 44 R110). -/
theorem encrypt_candidate_indexOfKey (pc : Bool) (K P : Word) (R : RoundIx) :
    encrypt (candidate pc (subkey K R.val) R.val (indexOfKey K R.val)) P = encrypt K P := by
  rw [(everyKeyIsAmongItsCandidates pc K R).2]
  exact (parityPositionsDoNotMatter _ K fun _ _ hq => bit_withParity_of_data pc K hq).2 P

/-- Settles O55: the candidate at the key's index matches, so the search does not run past it; at that
index it finds the key with recomputed parity. -/
theorem genuineTripleIsRecovered : Obligations.GenuineTripleIsRecovered := by
  intro s rd rs1 rs2 rs3 rnd K hr hkey hct
  have hown := encrypt_candidate_indexOfKey Config.parityComplement K (s.readX rs2) rnd
  rw [← hkey, ← hct] at hown
  obtain ⟨hlt, hcand⟩ := everyKeyIsAmongItsCandidates Config.parityComplement K rnd
  obtain ⟨t, hexec, -, -, -, -, -, -, -, -, -, -, hout⟩ :=
    ksrchFindsTheFirstMatch s rd rs1 rs2 rs3 rnd hr
  obtain ⟨i, henc, hfirst, hrd, hfound, hnf, hidx⟩ | ⟨hnone, -⟩ := hout
  · refine ⟨t, hexec, hfound, hnf, hrd ▸ henc, ?_, fun heq q _ hq => ?_⟩
    · rw [hidx]
      exact Nat.le_of_not_lt fun h => hfirst ⟨indexOfKey K rnd.val, hlt⟩ h hown
    · rw [hrd, ← hidx, heq, hkey, hcand, bit_withParity_of_data _ K hq]
  · exact absurd hown (hnone ⟨indexOfKey K rnd.val, hlt⟩)

/-- Settles O56: the search leaves what KSR stores, so the element at IDX is still the candidate the
search found. -/
theorem ksrchLeavesWhatKsrLeaves : Obligations.KsrchLeavesWhatKsrLeaves := by
  intro s rd rs1 rs2 rs3 rd' rnd hr
  obtain ⟨hmem, hprov⟩ :=
    searchStored_memories rd (s.readX rs2) (s.readX rs3) (s.scheduled (s.readX rs1) rnd)
  obtain ⟨hcv, hcr, hfault, -⟩ :=
    searchStored_status rd (s.readX rs2) (s.readX rs3) (s.scheduled (s.readX rs1) rnd)
  refine ⟨_, _, exec_ksrch_of_running rd rs1 rs2 rs3 rnd hr, exec_ksr_of_running rs1 rnd hr,
    hmem, hprov, hcv, hcr, fun hfound => ⟨_, exec_ldc_of_cv rd' (hfault.trans hr) _ hcv, ?_⟩⟩
  rw [State.readX_writeX_same, readCand_searchStored]
  cases hmatch : firstMatch (s.scheduled (s.readX rs1) rnd) (s.readX rs2) (s.readX rs3) with
  | some i =>
    obtain ⟨hrd, -, -, hidx⟩ := searchStored_of_match (rd := rd) hmatch
    rw [hrd]
    exact congrArg _ hidx
  | none =>
    obtain ⟨-, hnot, -⟩ := searchStored_of_exhaustion (rd := rd) hmatch
    exact absurd hfound (ne_true_of_eq_false hnot)

end Sys2Proof.Machine

/-!
PROOFS of the host access family (45_host_access.md): LDI and RDS as register writes, RD as a write of
RDATA, and STATUS as the word RDS copies.
-/

namespace Sys2Proof.Machine

/-! ### LDI and RD (45 R120, R121) -/

/-- Settles O22: LDI writes its operand to one register. -/
theorem ldiLoadsWdata : Obligations.LdiLoadsWdata := by
  intro s rd hr
  obtain ⟨t, hexec, hframe, hrd⟩ := (ldi_writesReg rd).exec_eq_next hr
  exact ⟨t, hexec, hrd, hframe⟩

theorem exec_rdReg_of_running {s : State} (rs1 : Reg) (hr : Running s) :
    exec (.rdReg rs1) s = .next (s.setRdata (s.readX rs1)) :=
  congrArg _ (State.gated_of_running hr _)

/-- Settles O23: past the open gate RD is one write of RDATA, which the output shows. -/
theorem rdShowsTheRegister : Obligations.RdShowsTheRegister :=
  fun s rs1 hr => ⟨_, exec_rdReg_of_running rs1 hr, State.rdataOut_eq _, rfl,
    State.readX_setRdata s _, rfl, rfl, rfl, fun _ => rfl, fun _ => rfl⟩

/-! ### RDS (45 R122) -/

theorem rds_writesReg (rd : Reg) : WritesReg (.rds rd) rd fun s => s.status.toWord :=
  fun _ hr => congrArg _ (State.gated_of_running hr _)

/-- Zero-extension keeps every bit of STATUS and adds none. -/
theorem Status.getLsbD_toWord (st : Status) (k : Nat) :
    st.toWord.getLsbD k = st.toBits.getLsbD k := by
  rw [Status.toWord, BitVec.getLsbD_setWidth, Bool.and_eq_right_iff_imp]
  exact fun h => decide_eq_true ((BitVec.lt_of_getLsbD h).trans (by decide))

/-- A slice of STATUS is the same slice of the word RDS copies. -/
theorem Status.extractLsb'_toWord (st : Status) (lo len : Nat) :
    st.toWord.extractLsb' lo len = st.toBits.extractLsb' lo len := by
  refine BitVec.eq_of_getLsbD_eq fun i _ => ?_
  rw [BitVec.getLsbD_extractLsb', BitVec.getLsbD_extractLsb', Status.getLsbD_toWord]

/-- Settles O24: RDS writes STATUS to one register; the fields of the word are those of the `status`
output (10 R13), and FAULT is clear because the block runs. -/
theorem rdsCopiesStatus : Obligations.RdsCopiesStatus := by
  intro s rd hr
  obtain ⟨t, hexec, hframe, hrd⟩ := (rds_writesReg rd).exec_eq_next hr
  refine ⟨t, hexec, hframe, ?_⟩
  simp only [hrd, Status.getLsbD_toWord, Status.extractLsb'_toWord, ← State.statusOut_eq]
  obtain ⟨hfound, hnf, hcv, hfault, hcause, hidx, hcr, -⟩ := statusFieldsStandAtTheirWeights s
  exact ⟨hfound, hnf, hcv, hfault.trans hr, hcause, hidx, hcr, BitVec.getLsbD_of_ge s.statusOut⟩

end Sys2Proof.Machine

/-!
PROOFS of the exceptions family (60_exceptions.md): a recorded fault stops the block until reset, fault
entry is precise, and the check of CV hides what CAND and PROV hold before a fill.
-/

namespace Sys2Proof.Machine

/-! ### A recorded fault (60 R135, R136) -/

section recorded
variable {s : State} (hf : s.status.fault = true)
include hf

theorem exec_of_fault (i : Instr) : exec i s = .next s := by
  obtain ⟨f, hexec⟩ := exec_eq_next_gated i
  exact (hexec s).trans (congrArg _ (State.gated_of_fault hf f))

/-- The gate stands before legal and illegal words alike. -/
theorem runCommand_of_fault (w : CmdWord) : runCommand w s = .next s := by
  cases hd : decode w with
  | ok i => exact (runCommand_of_legal hd s).trans (exec_of_fault hf i)
  | error e => exact (runCommand_of_illegal hd s).trans (congrArg _ (State.gated_of_fault hf _))

/-- A transaction is taken from the host and has no other effect. -/
theorem step_transaction_of_fault {w : CmdWord} {v : Word} {rest : List HostMove}
    (h : s.pending = .transaction ⟨w, v⟩ :: rest) : step s = .next (s.present v rest) :=
  (step_of_transaction h).trans (runCommand_of_fault (s := s.present v rest) hf w)

end recorded

/-- Settles O8: with a fault recorded only the two host fields move. -/
theorem recordedFaultIgnoresEveryTransaction : Obligations.RecordedFaultIgnoresEveryTransaction :=
  ⟨fun s _ v rest hf h => ⟨s.present v rest, step_transaction_of_fault hf h,
    rfl, rfl, rfl, rfl, rfl, rfl, rfl⟩, fun i _ hf => exec_of_fault hf i⟩

/-- Settles O9: by the host's next move. Reset clears STATUS, a transaction is ignored, and an idle
block keeps all state. -/
theorem onlyResetClearsAFault : Obligations.OnlyResetClearsAFault := by
  intro s t hf ht
  cases hp : s.pending with
  | nil =>
    obtain rfl := Host.Outcome.next.inj ((step_of_idle hp).symm.trans ht)
    exact .inr ⟨nofun, hf, rfl⟩
  | cons move rest =>
    cases move with
    | reset =>
      obtain rfl := Host.Outcome.next.inj ((step_of_reset hp).symm.trans ht)
      exact .inl ⟨⟨rest, rfl⟩, rfl, rfl⟩
    | transaction =>
      obtain rfl := Host.Outcome.next.inj ((step_transaction_of_fault hf hp).symm.trans ht)
      exact .inr ⟨nofun, hf, rfl⟩

/-! ### Fault entry (60 R130, R133, R134) -/

/-- Settles O10: by what the command can do. Every case that is not a fault entry keeps FAULT clear. -/
theorem legalCommandsFaultOnlyWhereListed : Obligations.LegalCommandsFaultOnlyWhereListed := by
  intro i s t hr h hf
  have hclear {u : State} (hu : u.status.fault = s.status.fault) : u.status.fault ≠ true :=
    ne_true_of_eq_false (hu.trans hr)
  cases effect_of_exec h with
  | ignored | registers | rdata | schedule => exact absurd hf (hclear rfl)
  | search rd rs1 rs2 rs3 rnd =>
    obtain ⟨-, -, hfault, -⟩ :=
      searchStored_status rd (s.readX rs2) (s.readX rs3) (s.scheduled (s.readX rs1) rnd)
    exact absurd hf (hclear hfault)
  | oneDestination rd rs1 rnd => exact .inl ⟨rd, rs1, rnd, rfl, raise_onlyFault s _⟩
  | ldcInvalid rd idx _ hcv => exact .inr ⟨.inl ⟨rd, idx, rfl⟩, hcv, raise_onlyFault s _⟩
  | ldpInvalid rd idx _ hcv => exact .inr ⟨.inr ⟨rd, idx, rfl⟩, hcv, raise_onlyFault s _⟩

/-- The decoder refuses a KSF with one destination (30 R60 item 4). -/
theorem decode_ne_ksf_oneDestination (w : CmdWord) (rd rs1 : Reg) (rnd : RoundIx) :
    decode w ≠ .ok (.ksf rd rd rs1 rnd) := by
  intro h
  obtain ⟨-, hw⟩ := isCode_of_decode h
  exact absurd rfl (bne_iff_ne.1 hw)

/-- Settles O11: by the four things a step can do. An illegal word's fault is O7's; a legal word
faults where O10 says, and the decoder refuses the KSF it lists. -/
theorem faultEntryChangesNothingElse : Obligations.FaultEntryChangesNothingElse := by
  intro s t hr ht hf
  obtain ⟨_, h⟩ | ⟨_, _, h⟩ | ⟨w, v, rest, i, hp, hd, h⟩ | ⟨w, v, rest, e, hp, hd, -⟩ := step_cases s
  · obtain rfl := Host.Outcome.next.inj (h.symm.trans ht)
    exact absurd hf (ne_true_of_eq_false hr)
  · obtain rfl := Host.Outcome.next.inj (h.symm.trans ht)
    exact absurd hf Bool.false_ne_true
  · obtain ⟨rd, rs1, rnd, rfl, -⟩ | ⟨hi, hcv, hframe⟩ :=
      legalCommandsFaultOnlyWhereListed i (s.present v rest) t hr (h.symm.trans ht) hf
    · exact absurd hd (decode_ne_ksf_oneDestination w rd rs1 rnd)
    · refine ⟨.candInvalid, w, v, rest, hp, hframe, .inr ⟨rfl, hcv, ?_⟩⟩
      obtain ⟨rd, idx, rfl⟩ | ⟨rd, idx, rfl⟩ := hi
      · exact ⟨rd, .inl ⟨idx, hd⟩⟩
      · exact ⟨rd, .inr ⟨idx, hd⟩⟩
  · obtain ⟨u, hu, hframe⟩ := illegalWordRecordsTheFaultAlone s w v rest e hr hp hd
    obtain rfl := Host.Outcome.next.inj (hu.symm.trans ht)
    exact ⟨.illegalCommand, w, v, rest, hp, hframe, .inl ⟨rfl, e, hd⟩⟩

/-! ### The memories before a fill (60 R133, 10 R28) -/

/-- `s` with other contents of CAND and PROV. -/
def State.withMemories (s : State) (c : Memory Word) (p : Memory Byte) : State :=
  { s with cand := c, prov := p }

/-- From `s` on, the effect `f` carries the contents of CAND and PROV nowhere but into themselves, and
not even there when it leaves CV set. -/
def HidesMemories (f : State → State) (s : State) : Prop :=
  ∀ c p, ∃ c' p', f (s.withMemories c p) = (f s).withMemories c' p' ∧
    ((f s).status.cv = true → c' = (f s).cand ∧ p' = (f s).prov)

/-- An effect that leaves both memories and CV alone. -/
theorem HidesMemories.of_kept {f : State → State} {s : State} (hcv : (f s).status.cv = false)
    (h : ∀ c p, f (s.withMemories c p) = (f s).withMemories c p) : HidesMemories f s :=
  fun c p => ⟨c, p, h c p, fun hcv' => absurd hcv' (ne_true_of_eq_false hcv)⟩

/-- An effect that overwrites both memories. -/
theorem HidesMemories.of_overwritten {f : State → State} {s : State}
    (h : ∀ c p, f (s.withMemories c p) = f s) : HidesMemories f s :=
  fun c p => ⟨(f s).cand, (f s).prov, h c p, fun _ => ⟨rfl, rfl⟩⟩

/-- A choice by the operands alone. -/
theorem HidesMemories.ite {q : Prop} [Decidable q] {f g : State → State} {s : State}
    (hf : HidesMemories f s) (hg : HidesMemories g s) :
    HidesMemories (fun s => if q then f s else g s) s := by
  split
  · exact hf
  · exact hg

/-- Behind the check of CV an effect is not reached before a fill, whatever it reads. -/
theorem HidesMemories.of_cvCheck (f : State → State) {s : State} (hcv : s.status.cv = false) :
    HidesMemories (fun s => if s.status.cv then f s else s.raise .candInvalid) s := by
  have hfault {u : State} (hu : u.status.cv = false) :
      (if u.status.cv then f u else u.raise .candInvalid) = u.raise .candInvalid :=
    if_neg (ne_true_of_eq_false hu)
  refine .of_kept ((congrArg (·.status.cv) (hfault hcv)).trans hcv) fun c p => ?_
  exact (hfault (u := s.withMemories c p) hcv).trans
    (congrArg (·.withMemories c p) (hfault hcv)).symm

/-- The gate reads FAULT only, so it adds no way for the contents to show. -/
theorem HidesMemories.gated {f : State → State} {s : State} (hcv : s.status.cv = false)
    (h : HidesMemories f s) : HidesMemories (·.gated f) s := by
  intro c p
  obtain ⟨hf, he⟩ | ⟨hr, he⟩ := State.gated_cases s f
  · simp only [he, State.gated_of_fault (s := s.withMemories c p) hf]
    exact ⟨c, p, rfl, fun hcv' => absurd hcv' (ne_true_of_eq_false hcv)⟩
  · simp only [he, State.gated_of_running (s := s.withMemories c p) hr]
    exact h c p

/-- Before a fill every command hides the memories: LDC and LDP fault, KSR and KSRCH overwrite them
before the search reads CAND, and no other command reads them. -/
theorem exec_hidesMemories (i : Instr) {s : State} (hcv : s.status.cv = false) :
    ∃ f, (∀ s : State, exec i s = .next (s.gated f)) ∧ HidesMemories f s := by
  cases i with
  | ldi | rdReg | rds | setbit | apply | perm | frnd | swap | enc =>
    exact ⟨_, fun _ => rfl, .of_kept hcv fun _ _ => rfl⟩
  | ksf => exact ⟨_, fun _ => rfl, .ite (.of_kept hcv fun _ _ => rfl) (.of_kept hcv fun _ _ => rfl)⟩
  | ksr rs1 rnd =>
    exact ⟨_, fun _ => rfl, .of_overwritten fun _ _ =>
      (ksrEffect_eq_scheduled rs1 rnd _).trans (ksrEffect_eq_scheduled rs1 rnd s).symm⟩
  | ksrch rd rs1 rs2 rs3 rnd =>
    exact ⟨_, fun _ => rfl, .of_overwritten fun _ _ =>
      (ksrchEffect_eq_searchStored rd rs1 rs2 rs3 rnd _).trans
        (ksrchEffect_eq_searchStored rd rs1 rs2 rs3 rnd s).symm⟩
  | ldc | ldp => exact ⟨_, fun _ => rfl, .of_cvCheck _ hcv⟩

/-- Settles O15: every command is a gated effect that hides the memories. -/
theorem unwrittenMemoryIsUnobservable : Obligations.UnwrittenMemoryIsUnobservable := by
  intro i s t c p hcv ht
  obtain ⟨f, hexec, hf⟩ := exec_hidesMemories i hcv
  obtain rfl := Host.Outcome.next.inj ((hexec s).symm.trans ht)
  obtain ⟨c', p', he, hkept⟩ := hf.gated hcv c p
  exact ⟨c', p', (hexec _).trans (congrArg _ he), hkept⟩

end Sys2Proof.Machine

/-!
PROOFS of the host's side of a step: which moves stay pending, who reads `wdata`, what the reset move
leaves, and what surrounds a command's execution.
-/

namespace Sys2Proof.Machine

/-! ### The moves pending (10 R12) -/

/-- A command word, legal or not, leaves the moves that follow it alone. -/
theorem runCommand_pending {w : CmdWord} {s t : State} (h : runCommand w s = .next t) :
    t.pending = s.pending := by
  cases hd : decode w with
  | ok i =>
    obtain ⟨-, hpending, -⟩ :=
      eachComponentHasItsWriters i s t ((runCommand_of_legal hd s).symm.trans h)
    exact hpending
  | error e =>
    obtain rfl := Host.Outcome.next.inj ((runCommand_of_illegal hd s).symm.trans h)
    obtain ⟨_, he⟩ | ⟨_, he⟩ := State.gated_cases s (·.raise .illegalCommand)
    · rw [he]
    · rw [he, State.raise_pending]

/-- Settles O5: by the host's next move, which a step drops before anything else is done. -/
theorem stepTakesExactlyTheNextMove : Obligations.StepTakesExactlyTheNextMove := by
  refine ⟨fun s t ht => ?_, fun _ => step_of_idle⟩
  cases hp : s.pending with
  | nil =>
    obtain rfl := Host.Outcome.next.inj ((step_of_idle hp).symm.trans ht)
    exact hp
  | cons move rest =>
    cases move with
    | reset =>
      obtain rfl := Host.Outcome.next.inj ((step_of_reset hp).symm.trans ht)
      rfl
    | transaction => exact runCommand_pending ((step_of_transaction hp).symm.trans ht)

/-! ### The `wdata` port (30 R55) -/

/-- `s` with another value on the `wdata` port. -/
def State.withWdata (s : State) (v : Word) : State := { s with wdata := v }

/-- The effect `f` neither reads nor writes the `wdata` port. -/
def IgnoresWdata (f : State → State) : Prop := ∀ s v, f (s.withWdata v) = (f s).withWdata v

/-- The gate reads FAULT only. -/
theorem IgnoresWdata.gated {f : State → State} (hf : IgnoresWdata f) : IgnoresWdata (·.gated f) := by
  intro s v
  obtain ⟨h, he⟩ | ⟨h, he⟩ := State.gated_cases s f
  · simp only [he, State.gated_of_fault (s := s.withWdata v) h]
  · simp only [he, State.gated_of_running (s := s.withWdata v) h, hf s v]

/-- A choice by anything but the port. -/
theorem IgnoresWdata.ite {q : State → Prop} [DecidablePred q] {f g : State → State}
    (hq : ∀ s v, q (s.withWdata v) ↔ q s) (hf : IgnoresWdata f) (hg : IgnoresWdata g) :
    IgnoresWdata fun s => if q s then f s else g s := by
  intro s v
  by_cases h : q s
  · simp only [if_pos h, if_pos ((hq s v).2 h), hf s v]
  · simp only [if_neg h, if_neg (mt (hq s v).1 h), hg s v]

theorem ignoresWdata_ksrEffect (rs1 : Reg) (rnd : RoundIx) :
    IgnoresWdata (ksrEffect Config.parityComplement (provMap rnd.val) rs1 rnd) := by
  intro s v
  rw [ksrEffect_eq_scheduled, ksrEffect_eq_scheduled]
  rfl

/-- The search reads the stored candidates, so the port changes neither its outcome nor its writes. -/
theorem ignoresWdata_searchStored (rd : Reg) (pt ct : Word) :
    IgnoresWdata (searchStored rd pt ct) := by
  intro s v
  unfold searchStored
  rw [firstMatch_congr (s := s) (t := s.withWdata v) rfl]
  cases firstMatch s pt ct with
  | some => rfl
  | none => rfl

theorem ignoresWdata_ksrchEffect (rd rs1 rs2 rs3 : Reg) (rnd : RoundIx) :
    IgnoresWdata (ksrchEffect Config.parityComplement (provMap rnd.val) rd rs1 rs2 rs3 rnd) := by
  intro s v
  rw [ksrchEffect_eq_searchStored, ksrchEffect_eq_searchStored]
  exact ignoresWdata_searchStored rd _ _ (s.scheduled (s.readX rs1) rnd) v

/-- Every command but LDI is a gated effect that ignores the port. -/
theorem exec_ignoresWdata {i : Instr} (hi : ∀ rd, i ≠ .ldi rd) :
    ∃ f, (∀ s : State, exec i s = .next (s.gated f)) ∧ IgnoresWdata f := by
  cases i with
  | ldi rd => exact absurd rfl (hi rd)
  | rdReg | rds | setbit | apply | perm | frnd | swap | enc =>
    exact ⟨_, fun _ => rfl, fun _ _ => rfl⟩
  | ksf | ldc | ldp =>
    exact ⟨_, fun _ => rfl, .ite (fun _ _ => Iff.rfl) (fun _ _ => rfl) fun _ _ => rfl⟩
  | ksr rs1 rnd => exact ⟨_, fun _ => rfl, ignoresWdata_ksrEffect rs1 rnd⟩
  | ksrch rd rs1 rs2 rs3 rnd => exact ⟨_, fun _ => rfl, ignoresWdata_ksrchEffect rd rs1 rs2 rs3 rnd⟩

/-- Settles O14: such a command is a gated effect that ignores the port, and so does the gate. -/
theorem onlyLdiReadsWdata : Obligations.OnlyLdiReadsWdata := by
  intro i s t v hi ht
  obtain ⟨f, hexec, hf⟩ := exec_ignoresWdata hi
  obtain rfl := Host.Outcome.next.inj ((hexec s).symm.trans ht)
  exact (hexec _).trans (congrArg _ (hf.gated s v))

/-! ### Reset (70 R150, 10 R28) -/

theorem Status.toBits_reset : Status.reset.toBits = 0 := by decide

/-- Settles O1: the fields are those of `State.assertReset`, a running block with `CV = 0`, on which
O50 says that LDC and LDP fault. -/
theorem resetMoveGivesTheResetState : Obligations.ResetMoveGivesTheResetState := by
  intro s rest hp
  have hfault := fun rd =>
    ldcAndLdpBeforeAFillFault { s.assertReset with pending := rest } rd rfl rfl
  exact ⟨_, step_of_reset hp, State.readX_assertReset s, rfl, Status.toBits_reset,
    rfl, rfl, rfl, rfl, rfl, rfl, rfl, fun _ => rfl, fun _ => rfl, rfl, rfl,
    fun rd => (hfault rd).1, fun rd => (hfault rd).2⟩

/-- Settles O2: nothing is stored and every field of STATUS is clear. -/
theorem invariantHoldsAtReset : Obligations.InvariantHoldsAtReset := inv_reset

/-! ### A transaction (30 R55) -/

/-- Settles O4: the state the command runs on is the one it is presented to. -/
theorem stepRunsTheDecodedCommand : Obligations.StepRunsTheDecodedCommand :=
  fun s _ v rest _ hp hd => ⟨s.present v rest,
    (step_of_transaction hp).trans (runCommand_of_legal hd _), rfl, rfl, rfl, rfl, rfl, rfl, rfl⟩

end Sys2Proof.Machine
